-- ==== Sys2Proof/Word.lean ====
section
/-! DEFINITION. The data the block works on: bytes, the eight-byte RawFrame, and a row of bits as its
provider holds it. -/

namespace Sys2Proof

/-- Eight bits; bit 0 is the least significant (R8 (b)). -/
abbrev Byte := BitVec 8

/-- A RawFrame: exactly eight bytes, numbered in the order their first bits appear in the row (R8 (e), R24,
R71). The frame buffer `fb[0]` to `fb[7]` holds one. -/
structure RawFrame where
  b0 : Byte
  b1 : Byte
  b2 : Byte
  b3 : Byte
  b4 : Byte
  b5 : Byte
  b6 : Byte
  b7 : Byte
  deriving DecidableEq, Repr, Inhabited

/-- A BitRow (R8 (a), R51): its number of bits and the bytes that hold them, most significant bit first
(R53). A cell is (byte offset, byte); a byte offset that is not listed holds 00 (log entry 4). -/
structure Row where
  len : Nat
  cells : List Host.Cell
  deriving DecidableEq, Repr, Inhabited

/-- The rows the row provider has, by row index (R60, R168). -/
abbrev Memory := List (Nat × Row)

end Sys2Proof
end

