-- ==== Sys2Proof/Config.lean ====
section
/-! DEFINITION. What is fixed before any invocation (`Cfg`, R6, R7), the parameters the spec leaves OPEN, and
the free values. A constant declared `opaque` has no body: nothing can be proved of its value. -/

namespace Sys2Proof

/-- The configuration record of R6. FRAME_BYTES (8) and SUM_BYTES (7) are fixed by the spec and no fields. -/
structure Cfg where
  /-- PATTERN_LEN, bits in the preamble pattern. -/
  patternLen : Nat
  /-- PATTERN, as a number of PATTERN_LEN bits, its most significant bit first in the row. -/
  pattern : Nat
  /-- TAIL_ALIGN, added to the match index in the span check. -/
  tailAlign : Nat
  /-- MIN_SPAN, bits that must remain from match index + TAIL_ALIGN. -/
  minSpan : Nat
  /-- SCAN_STEP, bits the scan start advances past a match. -/
  scanStep : Nat
  /-- TEMP_OFFSET, subtracted from the raw temperature byte. -/
  tempOffset : Nat
  /-- TYPE_TAG. -/
  typeTag : String
  /-- MIC_TAG. -/
  micTag : String
  /-- MODEL_NAME (OPEN). -/
  modelName : String
  /-- W_IDX (OPEN), width of a bit index register. -/
  wIdx : Nat
  /-- W_CNT (OPEN), width of the record counter. -/
  wCnt : Nat
  /-- W_ROW (OPEN), width of the row selector. -/
  wRow : Nat
  deriving DecidableEq, Repr

/-- FRAME_BYTES (R6): fixed, not variable. -/
def Config.frameBytes : Nat := 8

/-- SUM_BYTES (R6): fixed. -/
def Config.sumBytes : Nat := 7

/-- MODEL_NAME: in no source (N1, U11). -/
opaque Config.modelName : String

/-- W_IDX: OPEN (D29, U12). -/
opaque Config.wIdx : Nat

/-- W_CNT: OPEN (D29, U12). -/
opaque Config.wCnt : Nat

/-- W_ROW: OPEN (D29, U12). -/
opaque Config.wRow : Nat

/-- Free bit index number `n`: what a register holds that START leaves without a value (R41; log entry 2). -/
opaque Config.freeIndex : Nat → Nat

/-- Free byte number `n` (R41; log entry 2). -/
opaque Config.freeByte : Nat → Byte

/-- What the row provider answers for a row index it does not have: any row (U6; log entry 5). -/
opaque Config.absentRow : Nat → Row

/-- The configuration of this hardware: the defaults of R6, the OPEN parameters open. -/
def Cfg.default : Cfg where
  patternLen := 24
  pattern := 0x7FFF00
  tailAlign := 23
  minSpan := 89
  scanStep := 2
  tempOffset := 50
  typeTag := "TPMS"
  micTag := "SUM8"
  modelName := Config.modelName
  wIdx := Config.wIdx
  wCnt := Config.wCnt
  wRow := Config.wRow

/-- R7 (a), (b): what every admissible `Cfg` satisfies; and PATTERN is a number of PATTERN_LEN bits. -/
def Cfg.wf (c : Cfg) : Bool :=
  decide (1 ≤ c.patternLen) && decide (1 ≤ c.scanStep) && decide (c.pattern < 2 ^ c.patternLen)

/-- R7 (c), (d): the index and count widths suffice for a row of `rowLen` bits. -/
def Cfg.fits (c : Cfg) (rowLen : Nat) : Bool :=
  decide (rowLen + c.tailAlign + c.minSpan + c.patternLen + 64 < 2 ^ c.wIdx) && decide (rowLen < 2 ^ c.wCnt)

/-- R7 (e), not required: a candidate that passes the span check has all its frame bits. -/
def Cfg.spanCovers (c : Cfg) : Bool :=
  decide (c.patternLen + 64 ≤ c.tailAlign + c.minSpan)

end Sys2Proof
end

