-- ==== Sys2Proof/Syntax.lean ====
section
/-! DEFINITION. The rows of spec/opcode_table.json: the block's eight operations, by the selector row that
selects each, and the 88-bit frame format. -/

namespace Sys2Proof

/-- One constructor per row of the opcode table. `start` is the selector's bit 3 where it takes no part in the
selection (R77, the table's letter s): it is read by no meaning (R205). -/
inductive Instr where
  /-- WAIT, `0000`: `fsm = IDLE`, `start = 0` (R104). -/
  | waitIdle
  /-- WAIT, `0111`: `fsm = DONE`, `start = 0` (R104). -/
  | waitDone
  /-- START, `1000`: `fsm = IDLE`, `start = 1` (R101). -/
  | startIdle
  /-- START, `1111`: `fsm = DONE`, `start = 1` (R101). -/
  | startDone
  /-- LOCATE, `s001` (R92). -/
  | locate (start : Bool)
  /-- SPANCHK, `s010` (R102). -/
  | spanchk (start : Bool)
  /-- EXTRACT, `s011` (R122). -/
  | extract (start : Bool)
  /-- SUM8CHK, `s100` (R131). -/
  | sum8chk (start : Bool)
  /-- MAPEMIT, `s101` (R140). -/
  | mapemit (start : Bool)
  /-- ADVANCE, `s110` (R103). -/
  | advance (start : Bool)
  /-- TPMS_FRAME, 88 bits: the matched region of R70, its preamble fixed. -/
  | tpmsFrame (ident : BitVec 24) (pressure : BitVec 16) (tempRaw : Byte) (status : Byte) (checksum : Byte)
  deriving DecidableEq, Repr

/-- The frame bytes the fields of a TPMS_FRAME occupy (R70, R71, R73): most significant byte first. -/
def RawFrame.ofFields (ident : BitVec 24) (pressure : BitVec 16) (tempRaw status checksum : Byte) : RawFrame where
  b0 := ident.extractLsb' 16 8
  b1 := ident.extractLsb' 8 8
  b2 := ident.extractLsb' 0 8
  b3 := pressure.extractLsb' 8 8
  b4 := pressure.extractLsb' 0 8
  b5 := tempRaw
  b6 := status
  b7 := checksum

end Sys2Proof
end

