-- ==== Sys2Proof/WellFormed.lean ====
section
/-! DEFINITION. Which instructions are legal encodings. -/

namespace Sys2Proof

/-- The only notion of an illegal encoding in the block (R78): a frame whose first seven bytes do not sum,
modulo 256, to its eighth. Every selector is legal (R77), and no other field value is illegal (R79). A frame
that is not legal still has a meaning: it is rejected with ChecksumMismatch (R132). -/
def Instr.wellFormed : Instr → Bool
  | .tpmsFrame ident pressure tempRaw status checksum =>
    let b := RawFrame.ofFields ident pressure tempRaw status checksum
    (b.b0.toNat + b.b1.toNat + b.b2.toNat + b.b3.toNat + b.b4.toNat + b.b5.toNat + b.b6.toNat) % 256
      == checksum.toNat
  | .waitIdle => true
  | .waitDone => true
  | .startIdle => true
  | .startDone => true
  | .locate _ => true
  | .spanchk _ => true
  | .extract _ => true
  | .sum8chk _ => true
  | .mapemit _ => true
  | .advance _ => true

end Sys2Proof
end

