-- ==== Sys2Proof/Decode.lean ====
section
/-! DEFINITION. Decoding bytes into instructions and back. A selector is laid out as one byte whose upper four
bits are 0 (log entry 9); a matched region as its eleven bytes in row order (R70). The two cannot be confused:
a selector byte is below 10 hex, a region begins with 7F. -/

namespace Sys2Proof

/-- Why bytes are no instruction. -/
inductive DecodeError where
  /-- There is no byte to read. -/
  | noBytes
  /-- A first byte that is neither a 4-bit selector nor the first preamble byte. -/
  | notASelector (b : Byte)
  /-- A first preamble byte whose followers are not the other two. -/
  | wrongPreamble
  /-- A region that ends before its eleventh byte. -/
  | truncatedRegion
  deriving DecidableEq, Repr

/-- The three preamble bytes of R70. -/
def preambleBytes : List Byte := [0x7F#8, 0xFF#8, 0x00#8]

/-- The operation a selector selects (the table of R77): bits 2..0 are `fsm`, bit 3 is `start`. -/
def decodeSelector (sel : BitVec 4) : Instr :=
  let start := sel.getLsbD 3
  match (sel.extractLsb' 0 3).toNat with
  | 0 => if start then .startIdle else .waitIdle
  | 1 => .locate start
  | 2 => .spanchk start
  | 3 => .extract start
  | 4 => .sum8chk start
  | 5 => .mapemit start
  | 6 => .advance start
  | _ => if start then .startDone else .waitDone

/-- The frame in a matched region, after its first byte (R70, R73). -/
def decodeRegion : List Byte → Except DecodeError (Instr × List Byte)
  | p1 :: p2 :: b0 :: b1 :: b2 :: b3 :: b4 :: b5 :: b6 :: b7 :: rest =>
    if p1 = 0xFF#8 ∧ p2 = 0x00#8 then
      .ok (.tpmsFrame (b0 ++ b1 ++ b2) (b3 ++ b4) b5 b6 b7, rest)
    else .error .wrongPreamble
  | _ => .error .truncatedRegion

/-- Reads one instruction from the front of `bytes` and answers it with the bytes after it. -/
def decode (bytes : List Byte) : Except DecodeError (Instr × List Byte) :=
  match bytes with
  | [] => .error .noBytes
  | b :: rest =>
    if b.toNat < 16 then .ok (decodeSelector (b.extractLsb' 0 4), rest)
    else if b = 0x7F#8 then decodeRegion rest
    else .error (.notASelector b)

/-- The eight bytes of a RawFrame in row order (R71). -/
def RawFrame.bytes (b : RawFrame) : List Byte :=
  [b.b0, b.b1, b.b2, b.b3, b.b4, b.b5, b.b6, b.b7]

/-- The byte a selector is laid out as. -/
def selectorByte (sel : BitVec 4) : Byte := 0#4 ++ sel

/-- The bytes of an instruction: its selector's byte, or the eleven bytes of the region of R70. -/
def encode (i : Instr) : List Byte :=
  match i with
  | .tpmsFrame ident pressure tempRaw status checksum =>
    preambleBytes ++ (RawFrame.ofFields ident pressure tempRaw status checksum).bytes
  | .waitIdle => [selectorByte 0b0000#4]
  | .waitDone => [selectorByte 0b0111#4]
  | .startIdle => [selectorByte 0b1000#4]
  | .startDone => [selectorByte 0b1111#4]
  | .locate start => [selectorByte (BitVec.ofBool start ++ 0b001#3)]
  | .spanchk start => [selectorByte (BitVec.ofBool start ++ 0b010#3)]
  | .extract start => [selectorByte (BitVec.ofBool start ++ 0b011#3)]
  | .sum8chk start => [selectorByte (BitVec.ofBool start ++ 0b100#3)]
  | .mapemit start => [selectorByte (BitVec.ofBool start ++ 0b101#3)]
  | .advance start => [selectorByte (BitVec.ofBool start ++ 0b110#3)]

/-- The low `8 * n` bits of `w` as `n` bytes, most significant byte first: the order of R53 and R55. -/
def bytesBigEndian (w : Nat) : Nat → List Byte
  | 0 => []
  | n + 1 => BitVec.ofNat 8 (w / 2 ^ (8 * n)) :: bytesBigEndian w n

/-- The bytes of a table word: a selector is one byte (R84: numbers over `sel`), a region is an 88-bit number
whose bit 87 is the first row bit (R84: `MemRead(m, 11)`). -/
def tableWordBytes (nbits w : Nat) : Option (List Byte) :=
  if nbits ≤ 8 then (if w < 256 then some [BitVec.ofNat 8 w] else none)
  else if nbits = 88 then (if w < 2 ^ 88 then some (bytesBigEndian w 11) else none)
  else none

/-- The instruction the decoder reads from a table word (bit 0 the least significant). -/
def decodeTableWord (nbits w : Nat) : Option Instr :=
  match tableWordBytes nbits w with
  | none => none
  | some bytes =>
    match decode bytes with
    | .ok (i, []) => some i
    | .ok (_, _ :: _) => none
    | .error _ => none

/-- A row of the selector table of R77 and R84. -/
structure SelectorRow where
  mnemonic : String
  pattern : BitVec 4
  mask : BitVec 4
  deriving DecidableEq, Repr

/-- The ten selector rows of R77, as R84 lists them. -/
def selectorTable : List SelectorRow :=
  [⟨"WAIT", 0x0#4, 0xF#4⟩, ⟨"WAIT", 0x7#4, 0xF#4⟩, ⟨"START", 0x8#4, 0xF#4⟩, ⟨"START", 0xF#4, 0xF#4⟩,
   ⟨"LOCATE", 0x1#4, 0x7#4⟩, ⟨"SPANCHK", 0x2#4, 0x7#4⟩, ⟨"EXTRACT", 0x3#4, 0x7#4⟩,
   ⟨"SUM8CHK", 0x4#4, 0x7#4⟩, ⟨"MAPEMIT", 0x5#4, 0x7#4⟩, ⟨"ADVANCE", 0x6#4, 0x7#4⟩]

/-- A selector selects a row when the bits under the row's mask are the row's. -/
def SelectorRow.selects (r : SelectorRow) (sel : BitVec 4) : Bool := sel &&& r.mask == r.pattern

/-- The mnemonic of an instruction in the opcode table. -/
def Instr.mnemonic : Instr → String
  | .waitIdle => "WAIT"
  | .waitDone => "WAIT"
  | .startIdle => "START"
  | .startDone => "START"
  | .locate _ => "LOCATE"
  | .spanchk _ => "SPANCHK"
  | .extract _ => "EXTRACT"
  | .sum8chk _ => "SUM8CHK"
  | .mapemit _ => "MAPEMIT"
  | .advance _ => "ADVANCE"
  | .tpmsFrame _ _ _ _ _ => "TPMS_FRAME"

end Sys2Proof
end

