-- ==== Sys2Proof/Machine/State.lean ====
section
/-! DEFINITION. The state of the block (R20) with the parameters of its step (R36) beside it, all plain data; the
reasons a step stops; the state right after reset. -/

namespace Sys2Proof.Machine

/-- The control states of `fsm` (R21, R75). -/
inductive Fsm where
  | idle
  | locate
  | spanchk
  | extract
  | sum8chk
  | mapemit
  | advance
  | done
  deriving DecidableEq, Repr

/-- The two error kinds (R180). `last_err` holds `none` for code 0 and never anything else (R76, U14). -/
inductive ErrKind where
  /-- Not enough bits for a frame at a candidate (R181). -/
  | insufficientBits
  /-- The frame's sum is not its last byte (R182). -/
  | checksumMismatch
  deriving DecidableEq, Repr

/-- A DecodedRecord with the eight entries of R74, in that order. -/
structure DecodedRecord where
  model : String
  typeTag : String
  ident : BitVec 24
  status : Byte
  pressure : BitVec 16
  temperature : Int
  raw : BitVec 64
  mic : String
  deriving DecidableEq, Repr

/-- The level of description (R5) at which the next candidate is decoded: by the three operations of level S, or by
level F's `decode` in one step. It is no input of the block: the model's own (log entry 11). -/
inductive Level where
  | S
  | F
  deriving DecidableEq, Repr

/-- The inputs of one step: `rst`, `start`, `row_sel` (R33, R34), and the model's own level. -/
structure Pins where
  rst : Bool
  start : Bool
  rowSel : Nat
  level : Level
  deriving DecidableEq, Repr

/-- All inputs at rest. -/
def Pins.quiet : Pins := ⟨false, false, 0, .S⟩

/-- What the environment does next. -/
inductive Stimulus where
  /-- The inputs during one step of the block. -/
  | pins (p : Pins)
  /-- The row provider takes `bits` as the contents of row `row` (R61, R161 (a)). -/
  | place (row : Nat) (bits : List Bool)
  deriving DecidableEq, Repr

/-- The state. -/
structure State where
  /-- `Cfg` (R6): never written (R161 (c), R206). -/
  cfg : Cfg
  /-- The row provider's rows (R168). -/
  rows : Memory
  /-- What the environment does at the coming steps, the next first; past its end all inputs are at rest. -/
  stimuli : List Stimulus
  /-- The records the sink has received, the oldest first (R12, R162). -/
  emitted : List DecodedRecord
  /-- `fsm` (R21). -/
  fsm : Fsm
  /-- `pos`, the scan start (R22). -/
  pos : Nat
  /-- `m`, the match index (R23). -/
  m : Nat
  /-- `fb[0]` to `fb[7]`, the frame buffer (R24). -/
  fb : RawFrame
  /-- `acc`, the sum accumulator (R25). -/
  acc : Byte
  /-- `count`, records emitted in this invocation (R26). -/
  count : Nat
  /-- `rsel`, the row of the invocation (R27). -/
  rsel : Nat
  /-- `F_MATCH` (R28). -/
  fMatch : Bool
  /-- `F_REJ` (R28). -/
  fRej : Bool
  /-- `F_TRUNC` (R28). -/
  fTrunc : Bool
  /-- `last_err` (R29). -/
  lastErr : Option ErrKind
  /-- `err_m` (R29). -/
  errM : Nat
  /-- The model's own: how many free values have been used (log entry 2). -/
  freeIdx : Nat
  deriving DecidableEq, Repr

/-- The block has no fault (R10: an operation ends in a next state "always, for this block"; R188: "A model needs no
fault outcome"), so this type has no constructor. -/
inductive Fault where
  deriving DecidableEq, Repr

/-- Why the model gives a step no meaning. -/
inductive Refusal where
  /-- Raised by an arm of `exec` that has no meaning yet; there is none. Safe. -/
  | notModelled (mnemonic : String)
  /-- Raised by the row provider's step when it would change the row of a running invocation: unspecified by the spec,
  which says to refuse it (U1, R203, R204). Safe. -/
  | rowChangedDuringInvocation (row : Nat)
  /-- Raised by the step when the fetched bytes are no instruction; the selector is total (R77), so no state raises
  it. Safe. -/
  | undecodable (why : DecodeError)
  deriving DecidableEq, Repr

/-- The machine right after reset (R40, R200): IDLE, count, flags and `last_err` 0. The registers R40 leaves without a
value hold 0 (log entry 1); no row is placed, no input is driven, no record received. -/
def State.reset : State where
  cfg := Cfg.default
  rows := []
  stimuli := []
  emitted := []
  fsm := .idle
  pos := 0
  m := 0
  fb := ⟨0, 0, 0, 0, 0, 0, 0, 0⟩
  acc := 0
  count := 0
  rsel := 0
  fMatch := false
  fRej := false
  fTrunc := false
  lastErr := none
  errM := 0
  freeIdx := 0

end Sys2Proof.Machine
end

