-- ==== Sys2Proof/Machine/Operands.lean ====
section
/-! DEFINITION. What the operations read: the row's bits and bytes (20_memory.md), the pattern, the span check, the
frame at a candidate, the inputs and the selector. -/

namespace Sys2Proof.Machine

/-- The byte an address of a cell list holds; an unlisted one holds 00 (log entry 4). -/
def cellAt (cells : List Host.Cell) (a : Nat) : Byte :=
  match cells with
  | [] => 0
  | (b, v) :: rest => if a = b then v else cellAt rest a

/-- `byte_at(rsel, k)` of the row (R52). -/
def byteAt (row : Row) (k : Nat) : Byte := cellAt row.cells k

/-- `RowBit(i)` (R52): bit `7 − (i mod 8)` of the byte `byte_at(rsel, i div 8)`. It is asked only for
`i < row_len` (R65). -/
def rowBit (row : Row) (i : Nat) : Bool := (byteAt row (i / 8)).getLsbD (7 - i % 8)

/-- The `w` row bits from `p` as a number, the first the most significant (R8 (d), R54). -/
def readBits (row : Row) (p : Nat) : Nat → Nat
  | 0 => 0
  | w + 1 => 2 * readBits row p w + (rowBit row (p + w)).toNat

/-- `MemRead(p, n)` (R54): defined exactly when `p + 8·n ≤ row_len`. -/
def memRead (row : Row) (p n : Nat) : Option (BitVec (8 * n)) :=
  if p + 8 * n ≤ row.len then some (BitVec.ofNat (8 * n) (readBits row p (8 * n))) else none

/-- One byte of the row at bit index `p` (`MemRead(p, 1)` where that is defined). -/
def rowByte (row : Row) (p : Nat) : Byte := BitVec.ofNat 8 (readBits row p 8)

/-- `PATTERN[k]` (R6): bit `PATTERN_LEN − 1 − k` of PATTERN. -/
def patternBit (c : Cfg) (k : Nat) : Bool := c.pattern.testBit (c.patternLen - 1 - k)

/-- PATTERN occurs in the row at index `i` (R91). -/
def occursAt (c : Cfg) (row : Row) (i : Nat) : Bool :=
  decide (i + c.patternLen ≤ row.len)
    && (List.range c.patternLen).all fun k => rowBit row (i + k) == patternBit c k

/-- The first of the `n` positions from `i` at which PATTERN occurs. -/
def locateFrom (c : Cfg) (row : Row) : Nat → Nat → Option Nat
  | 0, _ => none
  | n + 1, i => if occursAt c row i then some i else locateFrom c row n (i + 1)

/-- `locate(row, PATTERN, start)` (R90): the smallest index at or after `start` at which PATTERN occurs. The positions
examined are those of R93. -/
def locate (c : Cfg) (row : Row) (start : Nat) : Option Nat :=
  locateFrom c row (row.len + 1 - (start + c.patternLen)) start

/-- `span_ok` (R102): `m + TAIL_ALIGN + MIN_SPAN ≤ row_len`. -/
def spanOk (c : Cfg) (row : Row) (m : Nat) : Bool := decide (m + c.tailAlign + c.minSpan ≤ row.len)

/-- `frame_start = m + PATTERN_LEN` (R121). -/
def frameStart (c : Cfg) (m : Nat) : Nat := m + c.patternLen

/-- The eight bytes from bit index `fs` (R71, R122). -/
def frameBytesAt (row : Row) (fs : Nat) : RawFrame where
  b0 := rowByte row (fs + 8 * 0)
  b1 := rowByte row (fs + 8 * 1)
  b2 := rowByte row (fs + 8 * 2)
  b3 := rowByte row (fs + 8 * 3)
  b4 := rowByte row (fs + 8 * 4)
  b5 := rowByte row (fs + 8 * 5)
  b6 := rowByte row (fs + 8 * 6)
  b7 := rowByte row (fs + 8 * 7)

/-- Extraction (R122): the RawFrame at `fs`, or none if fewer than 64 bits remain. -/
def extractFrame (row : Row) (fs : Nat) : Option RawFrame :=
  if fs + 64 ≤ row.len then some (frameBytesAt row fs) else none

/-- Byte `k` of a RawFrame (R71). -/
def frameByte (b : RawFrame) : Nat → Byte
  | 0 => b.b0
  | 1 => b.b1
  | 2 => b.b2
  | 3 => b.b3
  | 4 => b.b4
  | 5 => b.b5
  | 6 => b.b6
  | _ => b.b7

/-- The row with index `r`, if the provider has it. -/
def lookupRow (rows : Memory) (r : Nat) : Option Row :=
  match rows with
  | [] => none
  | (q, row) :: rest => if r = q then some row else lookupRow rest r

/-- The provider's row `r`; for an index it does not have, a free row (U6; log entry 5). -/
def State.rowNamed (s : State) (r : Nat) : Row :=
  match lookupRow s.rows r with
  | some row => row
  | none => Config.absentRow r

/-- The current row: row `rsel` (R27, R60). -/
def State.row (s : State) : Row := s.rowNamed s.rsel

/-- `row_len` (R51). -/
def State.rowLen (s : State) : Nat := s.row.len

/-- The inputs of this step: those the environment drives next, at rest past their end. -/
def State.pins (s : State) : Pins :=
  match s.stimuli with
  | .pins p :: _ => p
  | _ => Pins.quiet

/-- The eleven bytes of the matched region at `m` (R70). -/
def regionBytes (row : Row) (m : Nat) : List Byte :=
  [rowByte row m, rowByte row (m + 8), rowByte row (m + 16), rowByte row (m + 24), rowByte row (m + 32),
   rowByte row (m + 40), rowByte row (m + 48), rowByte row (m + 56), rowByte row (m + 64), rowByte row (m + 72),
   rowByte row (m + 80)]

/-- The candidate at `m` is decoded at level F: the environment chose that level, the block is at the candidate's
extraction, PATTERN_LEN is the 24 of R70, the region lies in the row, and its preamble is the table's. -/
def State.atFrame (s : State) : Bool :=
  s.pins.level == .F && s.fsm == .extract && s.cfg.patternLen == 24 && decide (s.m + 88 ≤ s.rowLen)
    && (regionBytes s.row s.m).take 3 == preambleBytes

end Sys2Proof.Machine
end

