-- ==== Sys2Proof/Machine/Flags.lean ====
section
/-! DEFINITION. The codes of the control states and errors, the checksum, the derived outputs and `STATUS`. -/

namespace Sys2Proof.Machine

/-- The code of a control state (R75). -/
def Fsm.code : Fsm → BitVec 3
  | .idle => 0
  | .locate => 1
  | .spanchk => 2
  | .extract => 3
  | .sum8chk => 4
  | .mapemit => 5
  | .advance => 6
  | .done => 7

/-- The control state with a code (R75: all eight codes are used). -/
def Fsm.ofCode (c : BitVec 3) : Fsm :=
  match c.toNat with
  | 0 => .idle
  | 1 => .locate
  | 2 => .spanchk
  | 3 => .extract
  | 4 => .sum8chk
  | 5 => .mapemit
  | 6 => .advance
  | _ => .done

/-- The code `last_err` holds (R76); 3 is never one. -/
def errCode : Option ErrKind → BitVec 2
  | none => 0
  | some .insufficientBits => 1
  | some .checksumMismatch => 2

/-- `sum8` (R130): the first seven bytes summed over the naturals, modulo 256. -/
def sum8 (b : RawFrame) : Byte :=
  BitVec.ofNat 8 (b.b0.toNat + b.b1.toNat + b.b2.toNat + b.b3.toNat + b.b4.toNat + b.b5.toNat + b.b6.toNat)

/-- The acceptance criterion (R132). -/
def accepted (b : RawFrame) : Bool := sum8 b == b.b7

/-- The running states: those in which `busy = 1` (R33 (6)). -/
def Fsm.running : Fsm → Bool
  | .idle => false
  | .locate => true
  | .spanchk => true
  | .extract => true
  | .sum8chk => true
  | .mapemit => true
  | .advance => true
  | .done => false

/-- `busy` (R33 (6)). -/
def State.busy (s : State) : Bool := s.fsm.running

/-- `done` (R33 (6)). -/
def State.isDone (s : State) : Bool := s.fsm == .done

/-- `rec_valid` (R31). -/
def State.recValid (s : State) : Bool := s.fsm == .mapemit

/-- `STATUS` (R32), bit 0 least significant; bits 10 and above do not exist. -/
def State.status (s : State) : BitVec 10 :=
  errCode s.lastErr ++ BitVec.ofBool s.fTrunc ++ BitVec.ofBool s.fRej ++ BitVec.ofBool s.fMatch
    ++ BitVec.ofBool s.isDone ++ BitVec.ofBool s.busy ++ s.fsm.code

/-- The operation selector `sel = start ++ fsm` (R77). -/
def State.sel (s : State) : BitVec 4 := BitVec.ofBool s.pins.start ++ s.fsm.code

end Sys2Proof.Machine
end

