-- ==== Sys2Proof/Machine/Fields.lean ====
section
/-! DEFINITION. The field functions of the field_decoder unit (R141 to R146), the record they make, the record port
(R31) and the textual renderings the sink applies (R150). -/

namespace Sys2Proof.Machine

/-- ID (R141). -/
def fieldId (b : RawFrame) : BitVec 24 := b.b0 ++ b.b1 ++ b.b2

/-- STATUS (R142). -/
def fieldStatus (b : RawFrame) : Byte := b.b6

/-- PRESSURE (R143). -/
def fieldPressure (b : RawFrame) : BitVec 16 := b.b3 ++ b.b4

/-- TEMPERATURE (R144): the raw byte, unsigned, less TEMP_OFFSET, as a mathematical integer. -/
def fieldTemperature (c : Cfg) (b : RawFrame) : Int := (b.b5.toNat : Int) - (c.tempOffset : Int)

/-- `rec_temp` (R144): `(zext_9(fb[5]) − TEMP_OFFSET) mod 512`. -/
def recTemp (c : Cfg) (b : RawFrame) : BitVec 9 := b.b5.zeroExtend 9 - BitVec.ofNat 9 c.tempOffset

/-- RAW (R145). -/
def fieldRaw (b : RawFrame) : BitVec 64 := b.b0 ++ b.b1 ++ b.b2 ++ b.b3 ++ b.b4 ++ b.b5 ++ b.b6 ++ b.b7

/-- `map_fields` (R140, R146). -/
def mapFields (c : Cfg) (b : RawFrame) : DecodedRecord where
  model := c.modelName
  typeTag := c.typeTag
  ident := fieldId b
  status := fieldStatus b
  pressure := fieldPressure b
  temperature := fieldTemperature c b
  raw := fieldRaw b
  mic := c.micTag

/-- The wires of the record port (R31, R34). -/
structure RecordPort where
  recId : BitVec 24
  recStatus : Byte
  recPressure : BitVec 16
  recTemp : BitVec 9
  recRaw : BitVec 64
  deriving DecidableEq, Repr

/-- The record port: a function of `fb` while `rec_valid = 1`, no value otherwise (R31, R37, U4). -/
def State.recordPort (s : State) : Option RecordPort :=
  if s.recValid then
    some ⟨fieldId s.fb, fieldStatus s.fb, fieldPressure s.fb, recTemp s.cfg s.fb, fieldRaw s.fb⟩
  else none

/-- The outputs of the block (R34), the abstract row read port apart. -/
structure Outputs where
  busy : Bool
  done : Bool
  count : Nat
  status : BitVec 10
  errM : Nat
  recValid : Bool
  record : Option RecordPort
  deriving DecidableEq, Repr

/-- What the host and the sink see (R33, R34). -/
def State.outputs (s : State) : Outputs :=
  ⟨s.busy, s.isDone, s.count, s.status, s.errM, s.recValid, s.recordPort⟩

/-- The digits 0-9 and uppercase A-F (R150 (a)), in order of value. -/
def hexAlphabet : List Char :=
  ['0', '1', '2', '3', '4', '5', '6', '7', '8', '9', 'A', 'B', 'C', 'D', 'E', 'F']

/-- The hexadecimal digit of a value below 16. -/
def hexDigit (d : Nat) : Char := hexAlphabet.getD d '0'

/-- The `n` hexadecimal digits of `v`, most significant first. -/
def hexDigits (v : Nat) : Nat → List Char
  | 0 => []
  | n + 1 => hexDigit (v / 16 ^ n % 16) :: hexDigits v n

/-- The `n` binary digits of `v`, most significant first. -/
def binDigits (v : Nat) : Nat → List Char
  | 0 => []
  | n + 1 => (if v.testBit n then '1' else '0') :: binDigits v n

/-- Decimal digits with `fuel` at least the number of digits, most significant first. -/
def decDigitsAux (v : Nat) : Nat → List Char → List Char
  | 0, acc => acc
  | fuel + 1, acc =>
    if v < 10 then hexDigit v :: acc
    else decDigitsAux (v / 10) fuel (hexDigit (v % 10) :: acc)

/-- The decimal digits of `v`, no padding (R150 (d)). -/
def decDigits (v : Nat) : List Char := decDigitsAux v (v + 1) []

/-- `id` as text (R150 (a)). -/
def renderId (v : BitVec 24) : List Char := hexDigits v.toNat 6

/-- `raw` as text (R150 (b)). -/
def renderRaw (v : BitVec 64) : List Char := hexDigits v.toNat 16

/-- `status` as text (R150 (c)): `0b` and eight binary digits. -/
def renderStatus (v : Byte) : List Char := '0' :: 'b' :: binDigits v.toNat 8

/-- `pressure` as text (R150 (d)). -/
def renderPressure (v : BitVec 16) : List Char := decDigits v.toNat

/-- `temperature` as text (R150 (e)). -/
def renderTemperature (v : Int) : List Char :=
  if v < 0 then '-' :: decDigits v.natAbs else decDigits v.natAbs

/-- The record as the sink sees it: eight key and value pairs in the order of R74. -/
def DecodedRecord.render (r : DecodedRecord) : List (String × String) :=
  [("model", r.model), ("type", r.typeTag), ("id", String.ofList (renderId r.ident)),
   ("status", String.ofList (renderStatus r.status)), ("pressure", String.ofList (renderPressure r.pressure)),
   ("temperature", String.ofList (renderTemperature r.temperature)), ("raw", String.ofList (renderRaw r.raw)),
   ("mic", r.mic)]

end Sys2Proof.Machine
end

