-- ==== Sys2Proof/Machine/Functional.lean ====
section
/-! DEFINITION. Level F (R5): `decode`, `scan` and the count as pure functions of the configuration and the row. -/

namespace Sys2Proof.Machine

/-- `decode(row, frame_start)` (R120): extraction, checksum validation, field mapping. -/
def decodeFrame (c : Cfg) (row : Row) (fs : Nat) : Except ErrKind DecodedRecord :=
  match extractFrame row fs with
  | none => .error .insufficientBits
  | some b => if accepted b then .ok (mapFields c b) else .error .checksumMismatch

/-- The records of one candidate: one if it decodes, else none. -/
def candidateRecords (c : Cfg) (row : Row) (m : Nat) : List DecodedRecord :=
  match decodeFrame c row (frameStart c m) with
  | .ok rec => [rec]
  | .error _ => []

/-- The loop of R100 from scan start `pos`, with a bound on its iterations. -/
def scanFrom (c : Cfg) (row : Row) : Nat → Nat → List DecodedRecord
  | 0, _ => []
  | n + 1, pos =>
    match locate c row pos with
    | none => []
    | some m =>
      if spanOk c row m then candidateRecords c row m ++ scanFrom c row n (m + c.scanStep) else []

/-- The records the loop still makes from scan start `pos`. With SCAN_STEP ≥ 1 (R7 (b)) it makes at most `row_len` full
iterations, so the bound is never met (R109). DESIGN CHOICE (log entry 19): with SCAN_STEP = 0, which R7 (b) excludes and
for which U7 would have a hang reported, it is the finite list the bound leaves, and means nothing. -/
def scanAt (c : Cfg) (row : Row) (pos : Nat) : List DecodedRecord := scanFrom c row (row.len + 1) pos

/-- `scan(Cfg, row)` (R100): the first search starts at bit 0; a `Cfg` with SCAN_STEP = 0 is none of R7's (log
entry 19). -/
def scan (c : Cfg) (row : Row) : List DecodedRecord := scanAt c row 0

/-- `count(Cfg, row)` (R100). -/
def scanCount (c : Cfg) (row : Row) : Nat := (scan c row).length

/-- The match indices the loop hands to `decode`, in the order tried (R107). -/
def candidatesFrom (c : Cfg) (row : Row) : Nat → Nat → List Nat
  | 0, _ => []
  | n + 1, pos =>
    match locate c row pos with
    | none => []
    | some m => if spanOk c row m then m :: candidatesFrom c row n (m + c.scanStep) else []

/-- The candidates the loop still tries from scan start `pos`; with SCAN_STEP = 0 as in log entry 19. -/
def candidatesAt (c : Cfg) (row : Row) (pos : Nat) : List Nat := candidatesFrom c row (row.len + 1) pos

/-- The candidates of a row (R107: "The exact set of candidates"). -/
def candidates (c : Cfg) (row : Row) : List Nat := candidatesAt c row 0

/-- `decode` of the candidate at `m` returns an error. -/
def rejects (c : Cfg) (row : Row) (m : Nat) : Bool :=
  match decodeFrame c row (frameStart c m) with
  | .ok _ => false
  | .error _ => true

/-- Whether the loop ends by a failed span check (R113, `F_TRUNC`). -/
def truncatedFrom (c : Cfg) (row : Row) : Nat → Nat → Bool
  | 0, _ => false
  | n + 1, pos =>
    match locate c row pos with
    | none => false
    | some m => if spanOk c row m then truncatedFrom c row n (m + c.scanStep) else true

/-- The loop from scan start `pos` ends by a failed span check; with SCAN_STEP = 0 as in log entry 19. -/
def truncatedAt (c : Cfg) (row : Row) (pos : Nat) : Bool := truncatedFrom c row (row.len + 1) pos

/-- The scan of the row ends by a failed span check. -/
def scanTruncated (c : Cfg) (row : Row) : Bool := truncatedAt c row 0

/-- The variant of the loop R110 compares with: an occurrence that fails the span check is skipped, not the end. -/
def skipScanFrom (c : Cfg) (row : Row) : Nat → Nat → List DecodedRecord
  | 0, _ => []
  | n + 1, pos =>
    match locate c row pos with
    | none => []
    | some m =>
      (if spanOk c row m then candidateRecords c row m else []) ++ skipScanFrom c row n (m + c.scanStep)

/-- The records of that variant; with SCAN_STEP = 0 as in log entry 19. -/
def skipScan (c : Cfg) (row : Row) : List DecodedRecord := skipScanFrom c row (row.len + 1) 0

end Sys2Proof.Machine
end

