-- ==== Sys2Proof/Machine/Ops.lean ====
section
/-! DEFINITION. The named operations over the provider's rows and the block's registers: every write an instruction
makes is one of these. Raising an error (R186) is one shared operation; there is no return operation (R187): the
continuation is ADVANCE. -/

namespace Sys2Proof

/-- Stores `v` at address `a`, keeping the addresses rising and the byte 00 unlisted. -/
def writeCell (a : Nat) (v : Byte) (cells : List Host.Cell) : List Host.Cell :=
  match cells with
  | [] => if v = 0 then [] else [(a, v)]
  | (b, w) :: rest =>
    if a < b then (if v = 0 then (b, w) :: rest else (a, v) :: (b, w) :: rest)
    else if a = b then (if v = 0 then rest else (a, v) :: rest)
    else (b, w) :: writeCell a v rest

/-- Stores `bytes` at the addresses from `a` up. -/
def storeBytes (a : Nat) (bytes : List Byte) (cells : List Host.Cell) : List Host.Cell :=
  match bytes with
  | [] => cells
  | v :: rest => storeBytes (a + 1) rest (writeCell a v cells)

/-- The bits `p` to `p + w − 1` of a list as a number, the first the most significant; a bit past the end is 0. -/
def packBits (bits : List Bool) (p : Nat) : Nat → Nat
  | 0 => 0
  | w + 1 => 2 * packBits bits p w + (bits.getD (p + w) false).toNat

/-- Byte `k` of a bit sequence (R53), the unused low bits of the last one 0 (R82). -/
def packByte (bits : List Bool) (k : Nat) : Byte := BitVec.ofNat 8 (packBits bits (8 * k) 8)

/-- The bytes of a bit sequence. -/
def packBytes (bits : List Bool) : List Byte :=
  (List.range ((bits.length + 7) / 8)).map (packByte bits)

/-- The row that holds a sequence of bits: its length is the sequence's (R8 (a), U6: consistent by construction). -/
def Row.ofBits (bits : List Bool) : Row := ⟨bits.length, storeBytes 0 (packBytes bits) []⟩

/-- The bits of bytes, each most significant bit first (R53). -/
def bitsOfBytes (bytes : List Byte) : List Bool :=
  bytes.flatMap fun v =>
    [v.getLsbD 7, v.getLsbD 6, v.getLsbD 5, v.getLsbD 4, v.getLsbD 3, v.getLsbD 2, v.getLsbD 1, v.getLsbD 0]

/-- The row written `ROW len : bytes` (R82). -/
def Row.ofBytes (len : Nat) (bytes : List Byte) : Row := Row.ofBits ((bitsOfBytes bytes).take len)

/-- The canonical form of a row: addresses rising, no listed byte 00, every listed byte holds a bit of the row, and
bits past the row's end are 0. -/
def Row.wf (row : Row) : Bool :=
  decide ((row.cells.map (·.1)).Pairwise (· < ·))
    && row.cells.all fun cell =>
      cell.2 != 0 && decide (8 * cell.1 < row.len)
        && decide (cell.2.toNat % 2 ^ (8 * cell.1 + 8 - row.len) = 0)

/-- The canonical form of the provider's rows: row indices rising, every row canonical. -/
def Memory.wf (rows : Memory) : Bool :=
  decide ((rows.map (·.1)).Pairwise (· < ·)) && rows.all fun entry => entry.2.wf

/-- Makes `row` the provider's row `r`. -/
def Memory.setRow (rows : Memory) (r : Nat) (row : Row) : Memory :=
  match rows with
  | [] => [(r, row)]
  | (q, old) :: rest =>
    if r < q then (r, row) :: (q, old) :: rest
    else if r = q then (r, row) :: rest
    else (q, old) :: Memory.setRow rest r row

namespace Machine

/-- `fsm <- f` (R9 (g)). -/
def State.enter (s : State) (f : Fsm) : State := { s with fsm := f }

/-- What LOCATE writes when it finds an occurrence at `i` (R92). -/
def State.found (s : State) (i : Nat) : State := { s with m := i, fMatch := true, fsm := .spanchk }

/-- What a failed span check writes (R102). -/
def State.truncate (s : State) : State := { s with fTrunc := true, fsm := .done }

/-- What a successful EXTRACT writes: all eight bytes together (R24, R122). -/
def State.loadFrame (s : State) (b : RawFrame) : State := { s with fb := b, fsm := .sum8chk }

/-- `acc <- v` (R131). -/
def State.setAcc (s : State) (v : Byte) : State := { s with acc := v }

/-- `raise` (R186): the error's code, the candidate's match index, `F_REJ`; control continues at ADVANCE. -/
def State.raise (s : State) (k : ErrKind) : State :=
  { s with lastErr := some k, errM := s.m, fRej := true, fsm := .advance }

/-- `emit(rec)` and the count (R152, R153): the sink takes the record of `fb`; control continues at ADVANCE. -/
def State.emitRecord (s : State) : State :=
  { s with emitted := s.emitted ++ [mapFields s.cfg s.fb], count := s.count + 1, fsm := .advance }

/-- What ADVANCE writes (R103). -/
def State.advancePos (s : State) : State := { s with pos := s.m + s.cfg.scanStep, fsm := .locate }

/-- A free bit index of W_IDX bits (log entry 2). -/
def freeIndexOf (c : Cfg) (n : Nat) : Nat := Config.freeIndex n % 2 ^ c.wIdx

/-- What START writes (R41, R101): the invocation's start values; `m`, `fb`, `acc`, `err_m` are left without a value,
so each takes a free one (log entry 2). -/
def State.beginInvocation (s : State) : State :=
  { s with
    pos := 0, count := 0, fMatch := false, fRej := false, fTrunc := false, lastErr := none,
    rsel := s.pins.rowSel, fsm := .locate,
    m := freeIndexOf s.cfg s.freeIdx,
    errM := freeIndexOf s.cfg (s.freeIdx + 1),
    acc := Config.freeByte (s.freeIdx + 2),
    fb := ⟨Config.freeByte (s.freeIdx + 3), Config.freeByte (s.freeIdx + 4), Config.freeByte (s.freeIdx + 5),
      Config.freeByte (s.freeIdx + 6), Config.freeByte (s.freeIdx + 7), Config.freeByte (s.freeIdx + 8),
      Config.freeByte (s.freeIdx + 9), Config.freeByte (s.freeIdx + 10)⟩,
    freeIdx := s.freeIdx + 11 }

/-- The whole of LOCATE (R92). -/
def State.locateNext (s : State) : State :=
  match locate s.cfg s.row s.pos with
  | some i => s.found i
  | none => s.enter .done

/-- The whole of SPANCHK (R102). -/
def State.checkSpan (s : State) : State :=
  if spanOk s.cfg s.row s.m then s.enter .extract else s.truncate

/-- The whole of EXTRACT (R122). -/
def State.extractNext (s : State) : State :=
  match extractFrame s.row (frameStart s.cfg s.m) with
  | some b => s.loadFrame b
  | none => s.raise .insufficientBits

/-- The whole of SUM8CHK (R131). -/
def State.checkSum (s : State) : State :=
  if accepted s.fb then (s.setAcc (sum8 s.fb)).enter .mapemit
  else (s.setAcc (sum8 s.fb)).raise .checksumMismatch

/-- One candidate whose frame is `b`, decoded at level F (R120): extraction, checksum validation, and the field mapping
of an accepted frame only. -/
def State.decodeCandidate (s : State) (b : RawFrame) : State :=
  if accepted b then (s.loadFrame b).checkSum.emitRecord else (s.loadFrame b).checkSum

/-- Hardware reset of the block (R40, R200): its registers as `State.reset` has them; the configuration, the rows, the
inputs to come and the records already presented stay (R209). -/
def State.resetBlock (s : State) : State :=
  { State.reset with
    cfg := s.cfg, rows := s.rows, stimuli := s.stimuli, emitted := s.emitted, freeIdx := s.freeIdx }

/-- The environment's step is over. -/
def State.dropStimulus (s : State) : State := { s with stimuli := s.stimuli.tail }

/-- The row provider takes `bits` as its row `r`. -/
def State.placeRow (s : State) (r : Nat) (bits : List Bool) : State :=
  { s with rows := s.rows.setRow r (Row.ofBits bits) }

/-- Whether placing `bits` as row `r` would change the row of a running invocation (R203, R204). -/
def State.disturbs (s : State) (r : Nat) (bits : List Bool) : Bool :=
  s.busy && r == s.rsel && decide (lookupRow s.rows r ≠ some (Row.ofBits bits))

/-- The row provider's step: any row between invocations, any other row inside one (R61); a change of the row being
decoded is refused (U1). -/
def placeStep (r : Nat) (bits : List Bool) (s : State) : Host.Outcome State Fault Refusal :=
  if s.disturbs r bits then .refused (.rowChangedDuringInvocation r)
  else .next (s.placeRow r bits).dropStimulus

/-- The bytes of the next instruction: the matched region at `m` where the candidate is decoded at level F, else the
selector (R77). -/
def State.fetch (s : State) : List Byte :=
  if s.atFrame then regionBytes s.row s.m else [selectorByte s.sel]

/-- What an instruction answered, with the environment's step over. -/
def afterExec (o : Host.Outcome State Fault Refusal) : Host.Outcome State Fault Refusal :=
  match o with
  | .next t => .next t.dropStimulus
  | .fault r => .fault r
  | .refused r => .refused r

/-- The state whose next step performs the operation of the selector `sel`. -/
def State.withSelector (s : State) (sel : BitVec 4) : State :=
  { s with
    fsm := Fsm.ofCode (sel.extractLsb' 0 3),
    stimuli := .pins ⟨false, sel.getLsbD 3, s.pins.rowSel, .S⟩ :: s.stimuli.tail }

/-- The state whose next step decodes the region `bytes` as its candidate: row `rsel` holds exactly the region, the
candidate is at bit 0, and the environment chose level F. -/
def State.withRegion (s : State) (bytes : List Byte) : State :=
  { s with
    rows := s.rows.setRow s.rsel (Row.ofBits (bitsOfBytes bytes)), m := 0, fsm := .extract,
    stimuli := .pins ⟨false, s.pins.start, s.pins.rowSel, .F⟩ :: s.stimuli.tail }

end Machine

end Sys2Proof
end

