-- ==== Sys2Proof/Machine/Decoder.lean ====
section
/-! DEFINITION. The operations of the decoder's three units, frame_extractor, checksum_validator and field_decoder, and
the one-step decoding of a frame in the format TPMS_FRAME. -/

namespace Sys2Proof.Machine

/-- EXTRACT (R122); the start bit is ignored (R205). -/
def execExtract (_start : Bool) (s : State) : Host.Outcome State Fault Refusal := .next s.extractNext

/-- SUM8CHK (R131); the start bit is ignored (R205). -/
def execSum8chk (_start : Bool) (s : State) : Host.Outcome State Fault Refusal := .next s.checkSum

/-- MAPEMIT (R140); the start bit is ignored (R205). -/
def execMapemit (_start : Bool) (s : State) : Host.Outcome State Fault Refusal := .next s.emitRecord

/-- TPMS_FRAME (R70, R120): the block's decoding of a candidate with these fields, in one step (log entry 11). -/
def execTpmsFrame (ident : BitVec 24) (pressure : BitVec 16) (tempRaw status checksum : Byte) (s : State) :
    Host.Outcome State Fault Refusal :=
  .next (s.decodeCandidate (RawFrame.ofFields ident pressure tempRaw status checksum))

end Sys2Proof.Machine
end

