-- ==== Sys2Proof/Machine/Preamble.lean ====
section
/-! DEFINITION. The operation of the preamble_matcher unit: LOCATE. -/

namespace Sys2Proof.Machine

/-- LOCATE (R92); the start bit is ignored (R205). -/
def execLocate (_start : Bool) (s : State) : Host.Outcome State Fault Refusal := .next s.locateNext

end Sys2Proof.Machine
end

