-- ==== Sys2Proof/Machine/Protocol.lean ====
section
/-! DEFINITION. The operations of the protocol_state_machine unit: WAIT, START, SPANCHK, ADVANCE. -/

namespace Sys2Proof.Machine

/-- WAIT in IDLE (R104): no register changes. -/
def execWaitIdle (s : State) : Host.Outcome State Fault Refusal := .next s

/-- WAIT in DONE (R104): no register changes. -/
def execWaitDone (s : State) : Host.Outcome State Fault Refusal := .next s

/-- START from IDLE (R101). -/
def execStartIdle (s : State) : Host.Outcome State Fault Refusal := .next s.beginInvocation

/-- START from DONE (R101). -/
def execStartDone (s : State) : Host.Outcome State Fault Refusal := .next s.beginInvocation

/-- SPANCHK (R102); the start bit is ignored (R205). -/
def execSpanchk (_start : Bool) (s : State) : Host.Outcome State Fault Refusal := .next s.checkSpan

/-- ADVANCE (R103); the start bit is ignored (R205). -/
def execAdvance (_start : Bool) (s : State) : Host.Outcome State Fault Refusal := .next s.advancePos

end Sys2Proof.Machine
end

