-- ==== Sys2Proof/Machine/Dispatch.lean ====
section
/-! DEFINITION. One meaning per constructor of Instr. -/

namespace Sys2Proof.Machine

def exec (i : Instr) (s : State) : Host.Outcome State Fault Refusal :=
  match i with
  | .waitIdle => Sys2Proof.Machine.execWaitIdle s
  | .waitDone => Sys2Proof.Machine.execWaitDone s
  | .startIdle => Sys2Proof.Machine.execStartIdle s
  | .startDone => Sys2Proof.Machine.execStartDone s
  | .locate start => Sys2Proof.Machine.execLocate start s
  | .spanchk start => Sys2Proof.Machine.execSpanchk start s
  | .extract start => Sys2Proof.Machine.execExtract start s
  | .sum8chk start => Sys2Proof.Machine.execSum8chk start s
  | .mapemit start => Sys2Proof.Machine.execMapemit start s
  | .advance start => Sys2Proof.Machine.execAdvance start s
  | .tpmsFrame ident pressure tempRaw status checksum => Sys2Proof.Machine.execTpmsFrame ident pressure tempRaw status checksum s

end Sys2Proof.Machine
end

