-- ==== Sys2Proof/Machine/Step.lean ====
section
/-! DEFINITION. One step: the row provider's, a reset, or the operation the selector selects. -/

namespace Sys2Proof.Machine

/-- Decodes what is fetched and runs it (R77: exactly one operation per step). -/
def runFetched (s : State) : Host.Outcome State Fault Refusal :=
  match decode s.fetch with
  | .ok (i, _) => afterExec (exec i s)
  | .error why => .refused (.undecodable why)

/-- One step of the block under its inputs: reset in any state (R40), else the operation. -/
def blockStep (s : State) : Host.Outcome State Fault Refusal :=
  if s.pins.rst then .next s.resetBlock.dropStimulus else runFetched s

/-- One step. -/
def step (s : State) : Host.Outcome State Fault Refusal :=
  match s.stimuli with
  | .place r bits :: _ => placeStep r bits s
  | .pins _ :: _ => blockStep s
  | [] => blockStep s

/-- The state whose next step runs the instruction of a table word (log entry 14): a selector through the control
state and the `start` input, a region through the row at the match index. A word of neither width changes nothing. -/
def State.withFetchWord (s : State) (nbits w : Nat) : State :=
  if nbits ≤ 8 then s.withSelector (BitVec.ofNat 4 w)
  else if nbits = 88 then s.withRegion (bytesBigEndian w 11)
  else s

end Sys2Proof.Machine
end

