-- ==== Sys2Proof/Safety.lean ====
section
/-! DEFINITION. What claims are about: the environment's contract during an invocation, and the invariants of the
machine. -/

namespace Sys2Proof.Machine

/-- The environment leaves a running invocation alone: inputs without reset, no row placed (R161 (b), R203). -/
def Stimulus.leavesAlone : Stimulus → Bool
  | .pins p => !p.rst
  | .place _ _ => false

/-- Every stimulus to come leaves a running invocation alone. -/
def State.undisturbed (s : State) : Bool := s.stimuli.all Stimulus.leavesAlone

/-- The block performs an operation at this step: no reset, no row placed. -/
def State.operates (s : State) : Bool :=
  match s.stimuli with
  | .place _ _ :: _ => false
  | .pins p :: _ => !p.rst
  | [] => true

/-- `k` steps, stopping at the first that gives no next state. -/
def steps : Nat → State → Host.Outcome State Fault Refusal
  | 0, s => .next s
  | k + 1, s =>
    match step s with
    | .next t => steps k t
    | .fault r => .fault r
    | .refused r => .refused r

/-- The records of the invocation so far: the last `count` the sink received (R108). -/
def State.invocationRecords (s : State) : List DecodedRecord := s.emitted.drop (s.emitted.length - s.count)

/-- The scan start of the next LOCATE, once the present candidate is over (R103). -/
def State.resume (s : State) : Nat :=
  match s.fsm with
  | .advance => s.m + s.cfg.scanStep
  | .idle => s.pos
  | .locate => s.pos
  | .spanchk => s.pos
  | .extract => s.pos
  | .sum8chk => s.pos
  | .mapemit => s.pos
  | .done => s.pos

/-- States in which `m` is the occurrence LOCATE found from `pos`. -/
def Fsm.hasMatch : Fsm → Bool
  | .idle => false
  | .locate => false
  | .spanchk => true
  | .extract => true
  | .sum8chk => true
  | .mapemit => true
  | .advance => true
  | .done => false

/-- States reached only by a candidate that passed the span check. -/
def Fsm.pastSpan : Fsm → Bool
  | .idle => false
  | .locate => false
  | .spanchk => false
  | .extract => true
  | .sum8chk => true
  | .mapemit => true
  | .advance => true
  | .done => false

/-- States in which `fb` is the frame of the candidate at `m`. -/
def Fsm.hasFrame : Fsm → Bool
  | .idle => false
  | .locate => false
  | .spanchk => false
  | .extract => false
  | .sum8chk => true
  | .mapemit => true
  | .advance => false
  | .done => false

/-- The candidate invariant: what the registers of a running candidate hold (R22, R23, R24, R102, R132). -/
structure CandidateInv (s : State) : Prop where
  found : s.fsm.hasMatch = true → locate s.cfg s.row s.pos = some s.m
  span : s.fsm.pastSpan = true → spanOk s.cfg s.row s.m = true
  frame : s.fsm.hasFrame = true → extractFrame s.row (frameStart s.cfg s.m) = some s.fb
  valid : s.fsm = .mapemit → accepted s.fb = true

/-- The agreement of a running invocation with level F (R113): what has been emitted, rejected, matched, with what the
scan still gives from where it resumes, is what the whole scan gives. -/
structure ScanInv (s : State) : Prop where
  candidate : CandidateInv s
  records : s.busy = true → s.invocationRecords ++ scanAt s.cfg s.row s.resume = scan s.cfg s.row
  counted : s.busy = true → s.invocationRecords.length = s.count
  rejected : s.busy = true →
    (s.fRej || (candidatesAt s.cfg s.row s.resume).any (rejects s.cfg s.row))
      = (candidates s.cfg s.row).any (rejects s.cfg s.row)
  flagged : s.fsm.hasMatch = true → s.fMatch = true
  matched : s.busy = true →
    (s.fMatch || (locate s.cfg s.row s.resume).isSome) = (locate s.cfg s.row 0).isSome
  truncated : s.busy = true →
    s.fTrunc = false ∧ truncatedAt s.cfg s.row s.resume = scanTruncated s.cfg s.row

/-- A `row_sel` input of `w` bits (R33 (2): the port has W_ROW bits). -/
def Stimulus.rowSelFits (w : Nat) : Stimulus → Bool
  | .pins p => decide (p.rowSel < 2 ^ w)
  | .place _ _ => true

/-- Every `row_sel` input to come fits its port. -/
def State.rowSelsFit (s : State) : Bool := s.stimuli.all (Stimulus.rowSelFits s.cfg.wRow)

/-- Bounds that keep every register of OPEN width, `pos`, `m`, `err_m`, `count` and `rsel`, within it (R22, R27, R111,
R112). The other registers have the width of their type. -/
structure BoundInv (s : State) : Prop where
  posFits : s.pos < 2 ^ s.cfg.wIdx
  mFits : s.m < 2 ^ s.cfg.wIdx
  errMFits : s.errM < 2 ^ s.cfg.wIdx
  countFits : s.count < 2 ^ s.cfg.wCnt
  rselFits : s.rsel < 2 ^ s.cfg.wRow
  inputsFit : s.rowSelsFit = true
  atLocate : s.fsm = .locate → s.count ≤ s.pos ∧ s.count ≤ s.rowLen
  atMatch : s.fsm.hasMatch = true → s.m + s.cfg.patternLen ≤ s.rowLen
  beforeEmit : s.fsm.hasMatch = true → s.fsm ≠ .advance → s.count ≤ s.m
  afterEmit : s.fsm = .advance → s.count ≤ s.m + 1

/-- Two states agree on everything a step can read before writing it (R37, R41, R201): not on `pos`, `m`, `fb`, `rsel`
where they hold no value of the invocation, never on `acc`, on `err_m` only while it is meaningful (R29). -/
structure AgreeLive (s t : State) : Prop where
  cfg : s.cfg = t.cfg
  rows : s.rows = t.rows
  stimuli : s.stimuli = t.stimuli
  emitted : s.emitted = t.emitted
  fsm : s.fsm = t.fsm
  count : s.count = t.count
  fMatch : s.fMatch = t.fMatch
  fRej : s.fRej = t.fRej
  fTrunc : s.fTrunc = t.fTrunc
  lastErr : s.lastErr = t.lastErr
  errM : s.lastErr ≠ none → s.errM = t.errM
  rsel : s.busy = true → s.rsel = t.rsel
  pos : s.fsm = .locate → s.pos = t.pos
  m : s.fsm.hasMatch = true → s.m = t.m
  fb : s.fsm.hasFrame = true → s.fb = t.fb

end Sys2Proof.Machine
end

