-- ==== Sys2Proof/Certificates/Slice0/Obligations.lean ====
section
/-! DEFINITION. The statements for the provers, in the order of spec/. -/

open Sys2Proof Sys2Proof.Machine

/-! ### Reset, status and codes -/

/-- R40: with `rst` asserted, in any state, the step leaves IDLE, `count`, flags and `last_err` 0, and the outputs
at rest; so does `State.reset`. The model's choices: that a reset step keeps the four fields that are no registers of the
block, `cfg`, `rows`, `emitted` (no record is emitted even from MAPEMIT) and the inputs to come, of which it drops its own
(log entry 13), and that the inputs to come and the records received are lists in State (log entries 7 and 10). Of the
registers R40 leaves unspecified it says nothing. -/
def Obligations.ResetValues : Prop :=
  (∀ (s : State) (p : Pins) (rest : List Stimulus), s.stimuli = .pins p :: rest → p.rst = true →
    ∃ t, step s = .next t ∧ t.fsm = .idle ∧ t.count = 0 ∧ t.fMatch = false ∧ t.fRej = false ∧ t.fTrunc = false
      ∧ t.lastErr = none ∧ t.busy = false ∧ t.isDone = false ∧ t.recValid = false ∧ t.status = 0#10
      ∧ t.cfg = s.cfg ∧ t.rows = s.rows ∧ t.emitted = s.emitted ∧ t.stimuli = rest)
  ∧ State.reset.fsm = .idle ∧ State.reset.count = 0 ∧ State.reset.fMatch = false ∧ State.reset.fRej = false
  ∧ State.reset.fTrunc = false ∧ State.reset.lastErr = none ∧ State.reset.busy = false
  ∧ State.reset.isDone = false ∧ State.reset.recValid = false ∧ State.reset.status = 0#10

/-- R32, with `busy` and `done` of R33 (6): the layout of `STATUS`, in every state; nothing at bit 10 and above. -/
def Obligations.StatusLayout : Prop :=
  ∀ s : State,
    s.status.extractLsb' 0 3 = s.fsm.code
    ∧ (s.status.getLsbD 3 = true ↔ s.fsm ≠ .idle ∧ s.fsm ≠ .done)
    ∧ (s.status.getLsbD 4 = true ↔ s.fsm = .done)
    ∧ s.status.getLsbD 5 = s.fMatch ∧ s.status.getLsbD 6 = s.fRej ∧ s.status.getLsbD 7 = s.fTrunc
    ∧ s.status.extractLsb' 8 2 = errCode s.lastErr
    ∧ ∀ k, 10 ≤ k → s.status.getLsbD k = false

/-- R75, R76: the state codes, all eight used; the error codes, 3 never. -/
def Obligations.CodesOfStatesAndErrors : Prop :=
  Fsm.code .idle = 0#3 ∧ Fsm.code .locate = 1#3 ∧ Fsm.code .spanchk = 2#3 ∧ Fsm.code .extract = 3#3
  ∧ Fsm.code .sum8chk = 4#3 ∧ Fsm.code .mapemit = 5#3 ∧ Fsm.code .advance = 6#3 ∧ Fsm.code .done = 7#3
  ∧ (∀ f : Fsm, Fsm.ofCode f.code = f) ∧ (∀ c : BitVec 3, (Fsm.ofCode c).code = c)
  ∧ errCode none = 0#2 ∧ errCode (some .insufficientBits) = 1#2 ∧ errCode (some .checksumMismatch) = 2#2
  ∧ ∀ e, errCode e ≠ 3#2

/-! ### Encodings -/

/-- R77: every value of the selector `start ++ fsm` selects the operation the table gives it; the table of R84 has
exactly one row for it, of that operation; at level S the step performs exactly the operation that its state and input
select. -/
def Obligations.SelectorSelectsOneOperation : Prop :=
  (∀ start : Bool, ∀ f : Fsm,
    decodeSelector (BitVec.ofBool start ++ f.code) = (match f with
      | .idle => if start then Instr.startIdle else .waitIdle
      | .locate => .locate start
      | .spanchk => .spanchk start
      | .extract => .extract start
      | .sum8chk => .sum8chk start
      | .mapemit => .mapemit start
      | .advance => .advance start
      | .done => if start then .startDone else .waitDone))
  ∧ (∀ sel : BitVec 4, (selectorTable.filter (·.selects sel)).map (·.mnemonic) = [(decodeSelector sel).mnemonic])
  ∧ ∀ s : State, s.operates = true → s.pins.level = .S →
      step s = (match exec (decodeSelector (BitVec.ofBool s.pins.start ++ s.fsm.code)) s with
        | .next t => .next { t with stimuli := t.stimuli.tail }
        | .fault r => .fault r
        | .refused r => .refused r)

/-- R70, R77, R84: decoding the bytes of any instruction, every operand at every value, gives it back, whatever follows
them; that a selector is laid out as one byte is the model's choice (log entry 9). -/
def Obligations.DecodeOfEncode : Prop :=
  ∀ (i : Instr) (rest : List Byte), decode (encode i ++ rest) = .ok (i, rest)

/-- Whatever the decoder accepts is the encoding of what it answers: no two byte sequences mean one instruction. -/
def Obligations.AcceptedBytesAreAnEncoding : Prop :=
  ∀ (bytes : List Byte) (i : Instr) (rest : List Byte), decode bytes = .ok (i, rest) → bytes = encode i ++ rest

/-- Words written out from the tables of R70 and R77. -/
def Obligations.WordsOfTheSpecDecode : Prop :=
  decodeTableWord 8 0b0000 = some .waitIdle ∧ decodeTableWord 8 0b0111 = some .waitDone
  ∧ decodeTableWord 8 0b1000 = some .startIdle ∧ decodeTableWord 8 0b1111 = some .startDone
  ∧ decodeTableWord 8 0b0001 = some (.locate false) ∧ decodeTableWord 8 0b1010 = some (.spanchk true)
  ∧ decodeTableWord 8 0b0011 = some (.extract false) ∧ decodeTableWord 8 0b1100 = some (.sum8chk true)
  ∧ decodeTableWord 8 0b0101 = some (.mapemit false) ∧ decodeTableWord 8 0b1110 = some (.advance true)
  ∧ decodeTableWord 88 0x7FFF00001122334464000E = some (.tpmsFrame 0x001122#24 0x3344#16 0x64#8 0x00#8 0x0E#8)

/-- R70, R55: where the candidate is decoded at level F, what is fetched is the frame in the row at `m`: its fields are
`MemRead` of the row, 24, 48, 64, 72 and 80 bits after `m`. -/
def Obligations.FetchedFrameIsTheMatchedRegion : Prop :=
  ∀ s : State, s.atFrame = true →
    ∃ (ident : BitVec 24) (pressure : BitVec 16) (tempRaw status checksum : Byte),
      decode s.fetch = .ok (.tpmsFrame ident pressure tempRaw status checksum, [])
      ∧ memRead s.row s.m 3 = some 0x7FFF00#24
      ∧ memRead s.row (s.m + 24) 3 = some ident ∧ memRead s.row (s.m + 48) 2 = some pressure
      ∧ memRead s.row (s.m + 64) 1 = some tempRaw ∧ memRead s.row (s.m + 72) 1 = some status
      ∧ memRead s.row (s.m + 80) 1 = some checksum

/-! ### The step -/

/-- A step of the block without reset is `exec` of the instruction its fetched bytes decode to; the environment's
step is then over. -/
def Obligations.StepRunsTheDecodedInstruction : Prop :=
  ∀ (s : State) (i : Instr) (rest : List Byte), s.operates = true → decode s.fetch = .ok (i, rest) →
    step s = (match exec i s with
      | .next t => .next { t with stimuli := t.stimuli.tail }
      | .fault r => .fault r
      | .refused r => .refused r)

/-- R10, R77, R184, R188: an operation always answers a next state, in every state: no fault, no refusal. -/
def Obligations.EveryOperationAnswersNext : Prop :=
  (∀ (i : Instr) (s : State), ∃ t, exec i s = .next t) ∧ ∀ s : State, s.operates = true → ∃ t, step s = .next t

/-- R106: the transition table of `fsm`, complete, at level S; reset forces IDLE from any state. -/
def Obligations.TransitionTable : Prop :=
  (∀ (s : State) (p : Pins) (rest : List Stimulus), s.stimuli = .pins p :: rest → p.rst = true →
    ∃ t, step s = .next t ∧ t.fsm = .idle)
  ∧ ∀ s : State, s.operates = true → s.pins.level = .S → ∃ t, step s = .next t
    ∧ (s.fsm = .idle → s.pins.start = false → t.fsm = .idle)
    ∧ (s.fsm = .idle → s.pins.start = true → t.fsm = .locate)
    ∧ (∀ i, s.fsm = .locate → locate s.cfg s.row s.pos = some i → t.fsm = .spanchk)
    ∧ (s.fsm = .locate → locate s.cfg s.row s.pos = none → t.fsm = .done)
    ∧ (s.fsm = .spanchk → s.m + s.cfg.tailAlign + s.cfg.minSpan ≤ s.rowLen → t.fsm = .extract)
    ∧ (s.fsm = .spanchk → ¬ s.m + s.cfg.tailAlign + s.cfg.minSpan ≤ s.rowLen → t.fsm = .done)
    ∧ (s.fsm = .extract → s.m + s.cfg.patternLen + 64 ≤ s.rowLen → t.fsm = .sum8chk)
    ∧ (s.fsm = .extract → ¬ s.m + s.cfg.patternLen + 64 ≤ s.rowLen → t.fsm = .advance)
    ∧ (s.fsm = .sum8chk → sum8 s.fb = s.fb.b7 → t.fsm = .mapemit)
    ∧ (s.fsm = .sum8chk → sum8 s.fb ≠ s.fb.b7 → t.fsm = .advance)
    ∧ (s.fsm = .mapemit → t.fsm = .advance)
    ∧ (s.fsm = .advance → t.fsm = .locate)
    ∧ (s.fsm = .done → s.pins.start = false → t.fsm = .done)
    ∧ (s.fsm = .done → s.pins.start = true → t.fsm = .locate)

/-- R105: DONE is entered only by a LOCATE that finds nothing or a SPANCHK that fails. It is left only by START or reset;
until then the outputs are those of an ended run, and the count, flags and error registers stay. -/
def Obligations.DoneIsTheEndOfARun : Prop :=
  ∀ s t : State, step s = .next t →
    (t.fsm = .done → s.fsm ≠ .done →
      (s.fsm = .locate ∧ locate s.cfg s.row s.pos = none)
        ∨ (s.fsm = .spanchk ∧ s.rowLen < s.m + s.cfg.tailAlign + s.cfg.minSpan))
    ∧ (s.fsm = .done →
      s.isDone = true ∧ s.busy = false ∧ s.recValid = false
      ∧ ((t.fsm = .done ∧ t.count = s.count ∧ t.fMatch = s.fMatch ∧ t.fRej = s.fRej ∧ t.fTrunc = s.fTrunc
            ∧ t.lastErr = s.lastErr ∧ t.errM = s.errM)
          ∨ (s.pins.start = true ∧ t.fsm = .locate) ∨ (s.pins.rst = true ∧ t.fsm = .idle)))

/-- R205: a `start` pulse in a running state changes nothing and is not remembered. -/
def Obligations.StartPulseWhileBusyIsIgnored : Prop :=
  ∀ (s : State) (p : Pins) (rest : List Stimulus) (pulse : Bool), s.busy = true → s.stimuli = .pins p :: rest →
    step { s with stimuli := .pins { p with start := pulse } :: rest } = step s

/-- R61, R203: the row provider may place a row between invocations, and one that is not being decoded at any time; the
step then changes that row alone. The model's choices: that a change of the row being decoded is refused (log entry 8),
and that a bit at or past the placed row's length reads 0 (log entry 4; the spec leaves those bits open, R52, U9, N12). -/
def Obligations.RowPlacement : Prop :=
  ∀ (s : State) (r : Nat) (bits : List Bool) (rest : List Stimulus), s.stimuli = .place r bits :: rest →
    ((s.busy = false ∨ r ≠ s.rsel ∨ lookupRow s.rows r = some (Row.ofBits bits)) → ∃ t, step s = .next t
      ∧ t = { s with rows := t.rows, stimuli := rest }
      ∧ (t.rowNamed r).len = bits.length ∧ (∀ i, rowBit (t.rowNamed r) i = bits.getD i false)
      ∧ (∀ q, q ≠ r → t.rowNamed q = s.rowNamed q)
      ∧ (s.busy = true → t.row = s.row))
    ∧ (s.busy = true → r = s.rsel → lookupRow s.rows r ≠ some (Row.ofBits bits) →
        step s = .refused (.rowChangedDuringInvocation r))

/-! ### What the instructions do -/

/-- R104: WAIT changes nothing: the two instructions in any state, and the step with `start = 0` in IDLE and DONE, whose
selectors select it. -/
def Obligations.WaitChangesNothing : Prop :=
  (∀ s : State, exec .waitIdle s = .next s ∧ exec .waitDone s = .next s)
  ∧ ∀ s : State, s.operates = true → s.pins.start = false → (s.fsm = .idle ∨ s.fsm = .done) →
      step s = .next { s with stimuli := s.stimuli.tail }
        ∧ (s.fsm = .idle → decodeSelector s.sel = .waitIdle)
        ∧ (s.fsm = .done → decodeSelector s.sel = .waitDone)

/-- R101, R41: START, selected by `start = 1` in IDLE and DONE, writes the start values in any state; `m`, `fb`, `acc`,
`err_m` and the model's free value counter may change, everything else stays. -/
def Obligations.StartBeginsAnInvocation : Prop :=
  ∀ s : State, ∃ t, exec .startIdle s = .next t ∧ exec .startDone s = .next t
    ∧ t = { s with
        pos := 0, count := 0, fMatch := false, fRej := false, fTrunc := false, lastErr := none,
        rsel := s.pins.rowSel, fsm := .locate, m := t.m, fb := t.fb, acc := t.acc, errM := t.errM,
        freeIdx := t.freeIdx }
    ∧ (s.pins.start = true → s.fsm = .idle → decodeSelector s.sel = .startIdle)
    ∧ (s.pins.start = true → s.fsm = .done → decodeSelector s.sel = .startDone)

/-- R92, R90, R91: LOCATE, in any state: the first occurrence of PATTERN at or after `pos` is recorded and goes to the
span check; with none, the invocation is done; nothing else changes. It is selected in the state LOCATE. -/
def Obligations.LocateFindsTheNextOccurrence : Prop :=
  ∀ (s : State) (start : Bool),
    (∀ i, s.pos ≤ i → i + s.cfg.patternLen ≤ s.rowLen →
        (∀ k, k < s.cfg.patternLen → rowBit s.row (i + k) = patternBit s.cfg k) →
        (∀ j, s.pos ≤ j → j < i → ∃ k, k < s.cfg.patternLen ∧ rowBit s.row (j + k) ≠ patternBit s.cfg k) →
        exec (.locate start) s = .next { s with m := i, fMatch := true, fsm := .spanchk })
    ∧ ((∀ j, s.pos ≤ j → j + s.cfg.patternLen ≤ s.rowLen →
          ∃ k, k < s.cfg.patternLen ∧ rowBit s.row (j + k) ≠ patternBit s.cfg k) →
        exec (.locate start) s = .next { s with fsm := .done })
    ∧ (s.fsm = .locate → decodeSelector s.sel = .locate s.pins.start)

/-- R102: SPANCHK, in any state, with the check as the rule gives it; for the default constants it is the same as
"at least 89 bits remain" from `m + 23`, for every match index. -/
def Obligations.SpanCheck : Prop :=
  (∀ (s : State) (start : Bool),
    (s.m + s.cfg.tailAlign + s.cfg.minSpan ≤ s.rowLen →
      exec (.spanchk start) s = .next { s with fsm := .extract })
    ∧ (s.rowLen < s.m + s.cfg.tailAlign + s.cfg.minSpan →
      exec (.spanchk start) s = .next { s with fTrunc := true, fsm := .done })
    ∧ (s.fsm = .spanchk → decodeSelector s.sel = .spanchk s.pins.start))
  ∧ ∀ (row : Row) (m : Nat), occursAt Cfg.default row m = true →
      (spanOk Cfg.default row m = true ↔ 89 ≤ row.len - (m + 23))

/-- R122, R186: EXTRACT, in any state: with 64 bits from `m + PATTERN_LEN` on, all eight frame bytes are read, bit for
bit, and only `fb` and `fsm` change; otherwise InsufficientBits is recorded for `m` and `fb` is not written. -/
def Obligations.ExtractReadsTheFrame : Prop :=
  ∀ (s : State) (start : Bool),
    (s.m + s.cfg.patternLen + 64 ≤ s.rowLen →
      ∃ b : RawFrame, exec (.extract start) s = .next { s with fb := b, fsm := .sum8chk }
        ∧ ∀ k j, k < 8 → j < 8 →
            (frameByte b k).getLsbD (7 - j) = rowBit s.row (s.m + s.cfg.patternLen + 8 * k + j))
    ∧ (s.rowLen < s.m + s.cfg.patternLen + 64 →
      exec (.extract start) s
        = .next { s with lastErr := some .insufficientBits, errM := s.m, fRej := true, fsm := .advance })
    ∧ (s.fsm = .extract → decodeSelector s.sel = .extract s.pins.start)

/-- R131, R186: SUM8CHK, in any state: `acc` takes the sum modulo 256; equal to `fb[7]` it goes to MAPEMIT, otherwise
ChecksumMismatch is recorded for `m`. Nothing else changes. -/
def Obligations.ChecksumIsCheckedAndRecorded : Prop :=
  ∀ (s : State) (start : Bool),
    let sum := s.fb.b0.toNat + s.fb.b1.toNat + s.fb.b2.toNat + s.fb.b3.toNat + s.fb.b4.toNat + s.fb.b5.toNat
      + s.fb.b6.toNat
    (sum % 256 = s.fb.b7.toNat →
      exec (.sum8chk start) s = .next { s with acc := BitVec.ofNat 8 sum, fsm := .mapemit })
    ∧ (sum % 256 ≠ s.fb.b7.toNat →
      exec (.sum8chk start) s = .next { s with
        acc := BitVec.ofNat 8 sum, lastErr := some .checksumMismatch, errM := s.m, fRej := true, fsm := .advance })
    ∧ (s.fsm = .sum8chk → decodeSelector s.sel = .sum8chk s.pins.start)

/-- R140, R141, R142, R143, R145, R146, R153: MAPEMIT, in any state: the record of `fb` is handed to the sink and
counted; nothing else changes. MAPEMIT is selected in its state, and that is entered only from a SUM8CHK that accepted
the frame. -/
def Obligations.MapEmitHandsOverTheRecord : Prop :=
  ∀ (s : State) (start : Bool), ∃ rec : DecodedRecord,
    exec (.mapemit start) s
      = .next { s with emitted := s.emitted ++ [rec], count := s.count + 1, fsm := .advance }
    ∧ rec.ident.toNat = 65536 * s.fb.b0.toNat + 256 * s.fb.b1.toNat + s.fb.b2.toNat
    ∧ rec.status = s.fb.b6
    ∧ rec.pressure.toNat = 256 * s.fb.b3.toNat + s.fb.b4.toNat
    ∧ rec.temperature = (s.fb.b5.toNat : Int) - (s.cfg.tempOffset : Int)
    ∧ rec.raw.toNat = ((((((s.fb.b0.toNat * 256 + s.fb.b1.toNat) * 256 + s.fb.b2.toNat) * 256 + s.fb.b3.toNat) * 256
        + s.fb.b4.toNat) * 256 + s.fb.b5.toNat) * 256 + s.fb.b6.toNat) * 256 + s.fb.b7.toNat
    ∧ rec.model = s.cfg.modelName ∧ rec.typeTag = s.cfg.typeTag ∧ rec.mic = s.cfg.micTag
    ∧ (s.fsm = .mapemit → decodeSelector s.sel = .mapemit s.pins.start)
    ∧ ∀ t, step s = .next t → t.fsm = .mapemit → s.fsm ≠ .mapemit → s.fsm = .sum8chk ∧ accepted s.fb = true

/-- R103: ADVANCE, in any state: the next search starts SCAN_STEP past the match; with the default constants 2 bits
past it. Nothing else changes. -/
def Obligations.AdvanceMovesPastTheMatch : Prop :=
  ∀ (s : State) (start : Bool),
    exec (.advance start) s = .next { s with pos := s.m + s.cfg.scanStep, fsm := .locate }
    ∧ (s.cfg = Cfg.default →
        exec (.advance start) s = .next { s with pos := s.m + 2, fsm := .locate })
    ∧ (s.fsm = .advance → decodeSelector s.sel = .advance s.pins.start)

/-- R120, R78: the one-step decoding of a frame, in any state, is its verdict: a frame whose first seven bytes sum to
the eighth is mapped, handed over and counted, any other is recorded as a ChecksumMismatch of the candidate; the
scan goes on at ADVANCE. That the step is one is the model's choice (log entry 11). -/
def Obligations.FrameIsAcceptedOrRejected : Prop :=
  ∀ (s : State) (ident : BitVec 24) (pressure : BitVec 16) (tempRaw status checksum : Byte),
    let b := RawFrame.ofFields ident pressure tempRaw status checksum
    ((Instr.tpmsFrame ident pressure tempRaw status checksum).wellFormed = true →
      ∃ rec : DecodedRecord,
        exec (.tpmsFrame ident pressure tempRaw status checksum) s
          = .next { s with
              fb := b, acc := checksum, emitted := s.emitted ++ [rec], count := s.count + 1, fsm := .advance }
        ∧ rec.ident = ident ∧ rec.status = status ∧ rec.pressure = pressure
        ∧ rec.temperature = (tempRaw.toNat : Int) - (s.cfg.tempOffset : Int)
        ∧ rec.raw = ident ++ pressure ++ tempRaw ++ status ++ checksum
        ∧ rec.model = s.cfg.modelName ∧ rec.typeTag = s.cfg.typeTag ∧ rec.mic = s.cfg.micTag)
    ∧ ((Instr.tpmsFrame ident pressure tempRaw status checksum).wellFormed = false →
      exec (.tpmsFrame ident pressure tempRaw status checksum) s
        = .next { s with
            fb := b, acc := sum8 b, lastErr := some .checksumMismatch, errM := s.m, fRej := true,
            fsm := .advance })

/-- R120 (that the step is one is the model's choice, log entry 11): where the frame fetched at level F stands in the row
at `m`, the one step is exactly the three operations of level S in a row: EXTRACT, SUM8CHK and, if the frame is accepted,
MAPEMIT. -/
def Obligations.FrameStepIsTheThreeOperations : Prop :=
  ∀ (s : State) (i : Instr) (a b c : Bool), s.atFrame = true → decode s.fetch = .ok (i, []) →
    ∃ t u v, exec (.extract a) s = .next t ∧ exec (.sum8chk b) t = .next u
      ∧ (if u.fsm = .mapemit then exec (.mapemit c) u = .next v else v = u)
      ∧ exec i s = .next v

/-- R59, R36, R161 (c): no instruction writes the row, the configuration or the inputs to come; every byte of every row
reads as before. -/
def Obligations.NoInstructionWritesMemory : Prop :=
  ∀ (i : Instr) (s t : State), exec i s = .next t →
    t.cfg = s.cfg ∧ t.stimuli = s.stimuli ∧ t.rows = s.rows
    ∧ ∀ r k, byteAt (t.rowNamed r) k = byteAt (s.rowNamed r) k ∧ (t.rowNamed r).len = (s.rowNamed r).len

/-- R28, R29: every instruction but START leaves a set flag set; only LOCATE sets `F_MATCH`, only SPANCHK `F_TRUNC`; the
error registers and `F_REJ` are written together, by EXTRACT, SUM8CHK or the frame decoding, or not at all. -/
def Obligations.FlagsAreStickyAndErrorsAreWrittenTogether : Prop :=
  ∀ (i : Instr) (s t : State), exec i s = .next t → i ≠ .startIdle → i ≠ .startDone →
    (s.fMatch = true → t.fMatch = true) ∧ (s.fRej = true → t.fRej = true) ∧ (s.fTrunc = true → t.fTrunc = true)
    ∧ (t.fMatch ≠ s.fMatch → ∃ a, i = .locate a)
    ∧ (t.fTrunc ≠ s.fTrunc → ∃ a, i = .spanchk a)
    ∧ ((t.lastErr = s.lastErr ∧ t.errM = s.errM ∧ t.fRej = s.fRej)
      ∨ (t.lastErr = some .insufficientBits ∧ t.errM = s.m ∧ t.fRej = true ∧ t.fsm = .advance
          ∧ ∃ a, i = .extract a)
      ∨ (t.lastErr = some .checksumMismatch ∧ t.errM = s.m ∧ t.fRej = true ∧ t.fsm = .advance
          ∧ ((∃ a, i = .sum8chk a) ∨ ∃ x p y z w, i = .tpmsFrame x p y z w)))

/-- R152, R31, R153: at level S a record reaches the sink in the steps in which `rec_valid = 1` and in no other, one
record, the one the record port carries; it is counted; `rec_valid` falls in the next state. The model's choices: that the
sink takes the record in its step (log entry 10, from R162 and R207), and that the 9-bit port carries the temperature
modulo 512 for every TEMP_OFFSET (log entry 16; R144 gives the port for the offset 50 only). -/
def Obligations.RecordsAreEmittedWhileValid : Prop :=
  ∀ s t : State, s.operates = true → s.pins.level = .S → step s = .next t →
    (s.recValid = true → t.recValid = false ∧ t.count = s.count + 1
      ∧ ∃ (rec : DecodedRecord) (port : RecordPort),
          t.emitted = s.emitted ++ [rec] ∧ s.recordPort = some port
          ∧ port.recId = rec.ident ∧ port.recStatus = rec.status ∧ port.recPressure = rec.pressure
          ∧ port.recRaw = rec.raw
          ∧ port.recTemp = BitVec.ofInt 9 rec.temperature)
    ∧ (s.recValid = false → t.emitted = s.emitted ∧ s.recordPort = none)

/-! ### The row -/

/-- R54: where `MemRead` is defined, its bits, its bytes, and how a long read is made of short ones. -/
def Obligations.MemReadLaws : Prop :=
  ∀ (row : Row) (p n : Nat), 1 ≤ n →
    (p + 8 * n ≤ row.len →
      ∃ v, memRead row p n = some v ∧ (∀ j, j < 8 * n → v.getLsbD (8 * n - 1 - j) = rowBit row (p + j))
        ∧ (∀ k, k < n → ∃ byte : BitVec (8 * 1), memRead row (p + 8 * k) 1 = some byte
            ∧ ∀ j, j < 8 → byte.getLsbD (7 - j) = v.getLsbD (8 * n - 1 - (8 * k + j)))
        ∧ (1 < n → ∃ (hi : BitVec (8 * 1)) (lo : BitVec (8 * (n - 1))),
            memRead row p 1 = some hi ∧ memRead row (p + 8) (n - 1) = some lo
            ∧ v.toNat = hi.toNat * 2 ^ (8 * (n - 1)) + lo.toNat))
    ∧ (row.len < p + 8 * n → memRead row p n = none)

/-- R57's formula, which R57 derives from R52 and R54, and R125: one byte read at any bit index, from the provider's
bytes: the aligned byte, or two adjacent ones. -/
def Obligations.ByteReadAcrossProviderBytes : Prop :=
  ∀ (row : Row) (p : Nat), p + 8 ≤ row.len →
    memRead row p 1 = some (BitVec.ofNat 8 (
      if p % 8 = 0 then (byteAt row (p / 8)).toNat
      else (byteAt row (p / 8)).toNat * 2 ^ (p % 8) % 256 + (byteAt row (p / 8 + 1)).toNat / 2 ^ (8 - p % 8)))

/-- R55, R145: after an EXTRACT the fields are numbers read from the row: big-endian, first row bit most significant. -/
def Obligations.FieldsAreReadsOfTheRow : Prop :=
  ∀ (row : Row) (fs : Nat) (b : RawFrame), extractFrame row fs = some b →
    memRead row fs 3 = some (fieldId b) ∧ memRead row (fs + 24) 2 = some (fieldPressure b)
    ∧ memRead row fs 8 = some (fieldRaw b)

/-- R65: the bounds discipline: two rows of one length that agree on every bit below it give the same search, frames
and records. That this holds of the scan with SCAN_STEP = 0 too, which R7 (b) excludes, is the model's choice (log
entry 19). -/
def Obligations.NothingBeyondTheRowIsRead : Prop :=
  ∀ (c : Cfg) (row row' : Row), row.len = row'.len → (∀ i, i < row.len → rowBit row i = rowBit row' i) →
    (∀ start, locate c row start = locate c row' start)
    ∧ (∀ fs, extractFrame row fs = extractFrame row' fs)
    ∧ scan c row = scan c row'

/-- The rows keep their canonical form through every step: indices and byte offsets rising, no byte 00 listed, no bit
past a row's end (log entry 4). -/
def Obligations.StepKeepsRowsCanonical : Prop :=
  ∀ s t : State, s.rows.wf = true → step s = .next t → t.rows.wf = true

/-- The reset state's rows are canonical and hold no row (log entry 4, the model's choice). -/
def Obligations.ResetRowsCanonical : Prop :=
  State.reset.rows.wf = true ∧ ∀ r, lookupRow State.reset.rows r = none

/-! ### Level F -/

/-- R91: an occurrence lies wholly in the row and matches every bit; a row shorter than the pattern has none. -/
def Obligations.OccurrenceMatchesEveryBit : Prop :=
  ∀ (c : Cfg) (row : Row) (i : Nat),
    (occursAt c row i = true ↔
      i + c.patternLen ≤ row.len ∧ ∀ k, k < c.patternLen → rowBit row (i + k) = patternBit c k)
    ∧ (row.len < c.patternLen → occursAt c row i = false)

/-- R90, R95 (a) to (e): `locate` is the first occurrence at or after the start, none if there is none; a later start
not past the answer gives the same answer; the bits before the start do not matter. -/
def Obligations.LocateLaws : Prop :=
  ∀ (c : Cfg) (row : Row) (start : Nat),
    (∀ i, locate c row start = some i ↔
      (start ≤ i ∧ occursAt c row i = true ∧ ∀ j, start ≤ j → j < i → occursAt c row j = false))
    ∧ (locate c row start = none ↔ ∀ j, start ≤ j → occursAt c row j = false)
    ∧ (∀ later i, start ≤ later → locate c row start = some i → later ≤ i → locate c row later = some i)
    ∧ (∀ later, start ≤ later → locate c row start = none → locate c row later = none)
    ∧ ∀ row' : Row, row'.len = row.len → (∀ i, start ≤ i → i < row.len → rowBit row' i = rowBit row i) →
        locate c row' start = locate c row start

/-- R72: the bits of the default pattern; two occurrences start at least 23 bits apart, and can start exactly so. -/
def Obligations.DefaultPatternOverlapsItselfOnlyBy23 : Prop :=
  (∀ k, k < 24 → patternBit Cfg.default k = decide (1 ≤ k ∧ k ≤ 15))
  ∧ (∀ (row : Row) (i j : Nat), occursAt Cfg.default row i = true → occursAt Cfg.default row j = true → i < j →
      i + 23 ≤ j)
  ∧ ∃ row : Row, occursAt Cfg.default row 0 = true ∧ occursAt Cfg.default row 23 = true

/-- R107: the candidates of a scan are occurrences that pass the span check, each at least SCAN_STEP past the one
before; and, with SCAN_STEP at least 1 (R7 (b)), exactly these: the first is the first occurrence of the row, the next
after a candidate `a` is the first occurrence at or after `a + SCAN_STEP`, and the sequence is cut before the first that
fails the span check. The clauses without that premise hold with SCAN_STEP = 0 too by the model's choice (log entry 19). -/
def Obligations.CandidatesIncrease : Prop :=
  ∀ (c : Cfg) (row : Row),
    (candidates c row).Pairwise (fun a b => a + c.scanStep ≤ b)
    ∧ (∀ m ∈ candidates c row, occursAt c row m = true ∧ m + c.tailAlign + c.minSpan ≤ row.len)
    ∧ (∀ m, (candidates c row).head? = some m ↔
        locate c row 0 = some m ∧ m + c.tailAlign + c.minSpan ≤ row.len)
    ∧ (1 ≤ c.scanStep → ∀ n a, (candidates c row)[n]? = some a →
        ∀ m, (candidates c row)[n + 1]? = some m ↔
          locate c row (a + c.scanStep) = some m ∧ m + c.tailAlign + c.minSpan ≤ row.len)

/-- R94: with the default configuration every occurrence that passes the span check is a candidate. -/
def Obligations.DefaultScanTriesEveryOccurrence : Prop :=
  ∀ (row : Row) (m : Nat), occursAt Cfg.default row m = true → m + 112 ≤ row.len → m ∈ candidates Cfg.default row

/-- R100, R107: the records of a scan are those of its candidates, in their order; with SCAN_STEP = 0, which R7 (b)
excludes, by the model's choice (log entry 19). -/
def Obligations.ScanIsTheRecordsOfItsCandidates : Prop :=
  ∀ (c : Cfg) (row : Row), scan c row = (candidates c row).flatMap (candidateRecords c row)

/-- R110: stopping at the first failed span check loses no record; with SCAN_STEP = 0, which R7 (b) excludes, by the
model's choice (log entry 19). -/
def Obligations.StoppingLosesNoRecord : Prop :=
  ∀ (c : Cfg) (row : Row), scan c row = skipScan c row

/-- R111: bounds on the count; with the widths of R7 (d) it fits its register. -/
def Obligations.CountIsBounded : Prop :=
  (∀ (c : Cfg) (row : Row), c.wf = true →
    scanCount c row ≤ (candidates c row).length
    ∧ (c.tailAlign + c.minSpan ≤ row.len →
        (candidates c row).length ≤ (row.len - c.tailAlign - c.minSpan) / c.scanStep + 1)
    ∧ (row.len < c.tailAlign + c.minSpan → scanCount c row = 0)
    ∧ scanCount c row ≤ row.len
    ∧ (c.fits row.len = true → scanCount c row < 2 ^ c.wCnt))
  ∧ ∀ row : Row, 112 ≤ row.len → scanCount Cfg.default row ≤ (row.len - 112) / 23 + 1

/-- R163: no record and no rejected candidate is the same as no candidate; with SCAN_STEP = 0, which R7 (b) excludes, by
the model's choice (log entry 19). -/
def Obligations.NoRecordNoRejectionNoCandidate : Prop :=
  ∀ (c : Cfg) (row : Row),
    (scanCount c row = 0 ∧ (candidates c row).any (rejects c row) = false) ↔ candidates c row = []

/-- R95 (b) at 0, the source's first property: a row without the preamble has no record. -/
def Obligations.NoPreambleNoRecord : Prop :=
  ∀ (c : Cfg) (row : Row), (∀ i, occursAt c row i = false) → scan c row = [] ∧ candidates c row = []

/-- R120: `decode` depends on the 64 bits of the frame and on there being as many, and on nothing else of the row. -/
def Obligations.DecodeReadsOnlyTheFrame : Prop :=
  ∀ (c : Cfg) (row row' : Row) (fs : Nat),
    (fs + 64 ≤ row.len ↔ fs + 64 ≤ row'.len) →
    (∀ j, j < 64 → rowBit row (fs + j) = rowBit row' (fs + j)) →
    decodeFrame c row fs = decodeFrame c row' fs

/-- R132: the sum does not depend on the order of the seven bytes; one eighth byte is accepted for every seven. -/
def Obligations.ChecksumIgnoresOrder : Prop :=
  (∀ b b' : RawFrame,
    ([b.b0, b.b1, b.b2, b.b3, b.b4, b.b5, b.b6].Perm [b'.b0, b'.b1, b'.b2, b'.b3, b'.b4, b'.b5, b'.b6]) →
    sum8 b = sum8 b')
  ∧ ∀ b : RawFrame, ∃ v : Byte, ∀ w : Byte, accepted { b with b7 := w } = true ↔ w = v

/-- R133 (e): a single-bit error in any byte of an accepted frame is always detected. -/
def Obligations.SingleBitErrorIsDetected : Prop :=
  ∀ (b b' : RawFrame) (k j : Nat), k < 8 → j < 8 → accepted b = true →
    (∀ n, n < 8 → n ≠ k → frameByte b' n = frameByte b n) →
    frameByte b' k = frameByte b k ^^^ (1#8 <<< j) → accepted b' = false

/-- R144: the temperature is exact: −50 to 205 with the default offset, and the 9-bit port carries it. -/
def Obligations.TemperatureIsExact : Prop :=
  ∀ (c : Cfg) (b : RawFrame), c.tempOffset = 50 →
    fieldTemperature c b = (b.b5.toNat : Int) - 50
    ∧ -50 ≤ fieldTemperature c b ∧ fieldTemperature c b ≤ 205
    ∧ (recTemp c b).toInt = fieldTemperature c b

/-- R149: among accepted frames the four fields determine the frame, and every value of them is one's. -/
def Obligations.RecordDeterminesFrame : Prop :=
  (∀ (c : Cfg) (b b' : RawFrame), accepted b = true → accepted b' = true →
    (mapFields c b).ident = (mapFields c b').ident → (mapFields c b).pressure = (mapFields c b').pressure →
    (mapFields c b).temperature = (mapFields c b').temperature →
    (mapFields c b).status = (mapFields c b').status → b = b')
  ∧ ∀ (c : Cfg) (ident : BitVec 24) (pressure : BitVec 16) (tempRaw status : Byte),
      ∃ b : RawFrame, accepted b = true ∧ fieldId b = ident ∧ fieldPressure b = pressure
        ∧ fieldTemperature c b = (tempRaw.toNat : Int) - (c.tempOffset : Int) ∧ fieldStatus b = status

/-- R150, R74: the texts of `id`, `raw` and `status`: their lengths, their alphabets, and that they are the values' digits;
and the record as the sink sees it: the eight keys in the order of R74, each with the text of its field, the tags being
the constant strings themselves. -/
def Obligations.RenderingsAreTheDigits : Prop :=
  (∀ v : BitVec 24, (renderId v).length = 6
    ∧ (renderId v).foldl (fun n ch => 16 * n + hexAlphabet.idxOf ch) 0 = v.toNat
    ∧ ∀ ch ∈ renderId v, ch ∈ hexAlphabet)
  ∧ (∀ v : BitVec 64, (renderRaw v).length = 16
    ∧ (renderRaw v).foldl (fun n ch => 16 * n + hexAlphabet.idxOf ch) 0 = v.toNat
    ∧ ∀ ch ∈ renderRaw v, ch ∈ hexAlphabet)
  ∧ (∀ v : Byte, (renderStatus v).take 2 = ['0', 'b'] ∧ (renderStatus v).length = 10
    ∧ ∀ k, k < 8 → (renderStatus v)[k + 2]? = some (if v.getLsbD (7 - k) then '1' else '0'))
  ∧ (∀ r : DecodedRecord,
      r.render.map (·.1) = ["model", "type", "id", "status", "pressure", "temperature", "raw", "mic"]
      ∧ r.render.map (·.2.toList) = [r.model.toList, r.typeTag.toList, renderId r.ident, renderStatus r.status,
          renderPressure r.pressure, renderTemperature r.temperature, renderRaw r.raw, r.mic.toList])
  ∧ ∀ b : RawFrame,
      (mapFields Cfg.default b).render.filter (fun kv => kv.1 == "type" || kv.1 == "mic")
        = [("type", "TPMS"), ("mic", "SUM8")]

/-- R150 (d), (e): `pressure` and `temperature` as text: decimal digits of the value without padding, a leading minus
for a negative temperature. -/
def Obligations.DecimalRenderings : Prop :=
  (∀ v : Nat, decDigits v ≠ [] ∧ (∀ ch ∈ decDigits v, ch ∈ hexAlphabet.take 10)
    ∧ (decDigits v).foldl (fun n ch => 10 * n + hexAlphabet.idxOf ch) 0 = v
    ∧ ((decDigits v).head? = some '0' → v = 0 ∧ (decDigits v).length = 1))
  ∧ (∀ v : BitVec 16, renderPressure v = decDigits v.toNat)
  ∧ (∀ n : Nat, renderTemperature (n : Int) = decDigits n)
  ∧ ∀ n : Nat, 1 ≤ n → renderTemperature (-(n : Int)) = '-' :: decDigits n

/-! ### Invariants and the agreement of the levels -/

/-- R22, R23, R24, R102, R132: the registers of a running candidate hold what the operations found, through every step:
`m` is the occurrence found from `pos`, past SPANCHK it has the span, in SUM8CHK and MAPEMIT `fb` is its frame, and
MAPEMIT is reached only by an accepted one. -/
def Obligations.StepKeepsTheCandidate : Prop :=
  ∀ s t : State, CandidateInv s → step s = .next t → CandidateInv t

/-- R113's invariant: every step keeps the agreement of a running invocation with `scan`: the records so far and those
still to come are the scan's, the count is their number, the flags are the scan's. -/
def Obligations.StepKeepsTheScan : Prop :=
  ∀ s t : State, s.cfg.wf = true → ScanInv s → step s = .next t → ScanInv t

/-- The reset state meets the invariants, whatever the OPEN parameters are; `pos`, `m`, `err_m` and `rsel` hold the 0 of
log entry 1, the model's choice. -/
def Obligations.ResetMeetsTheInvariants : Prop :=
  CandidateInv State.reset ∧ ScanInv State.reset ∧ BoundInv State.reset ∧ State.reset.cfg.wf = true

/-- R22, R27, R111, R112: where the widths are those of R7 (c) and (d), SCAN_STEP is at most PATTERN_LEN (log entry 6) and
the `row_sel` inputs to come fit their port (R33 (2)), no step makes `pos`, `m`, `err_m`, `count` or `rsel`, the registers
of OPEN width, outgrow it. -/
def Obligations.StepKeepsTheWidths : Prop :=
  ∀ s t : State, s.cfg.wf = true → s.cfg.fits s.rowLen = true → s.cfg.scanStep ≤ s.cfg.patternLen →
    BoundInv s → step s = .next t → BoundInv t

/-- R124: where the span covers the frame, InsufficientBits is never recorded. -/
def Obligations.InsufficientBitsNeverRecorded : Prop :=
  ∀ s t : State, s.cfg.spanCovers = true → CandidateInv s → s.lastErr ≠ some .insufficientBits →
    step s = .next t → t.lastErr ≠ some .insufficientBits

/-- R37, R41, R201: no step reads what a register holds where the spec gives it no value: from two states that agree on
the rest, a step gives two states that agree on the rest. -/
def Obligations.ValuelessRegistersAreNeverRead : Prop :=
  ∀ s s' t : State, AgreeLive s s' → step s = .next t → ∃ t', step s' = .next t' ∧ AgreeLive t t'

/-- R201, R167: START forgets the past: from any two states with one environment it gives states that agree on
everything a later step reads. -/
def Obligations.StartForgetsThePast : Prop :=
  ∀ s s' : State, s.cfg = s'.cfg → s.rows = s'.rows → s.stimuli = s'.stimuli → s.emitted = s'.emitted →
    ∃ t t', exec .startIdle s = .next t ∧ exec .startDone s' = .next t' ∧ AgreeLive t t'

/-- R105, R108: the step that ends an invocation leaves its result: the records emitted are the scan's, `count` is their
number, and the flags say what R113 says they do. -/
def Obligations.EndOfRunHoldsTheScan : Prop :=
  ∀ s t : State, s.cfg.wf = true → ScanInv s → s.busy = true → step s = .next t → t.fsm = .done →
    t.invocationRecords = scan s.cfg s.row ∧ t.count = scanCount s.cfg s.row
    ∧ t.fMatch = (locate s.cfg s.row 0).isSome
    ∧ t.fRej = (candidates s.cfg s.row).any (rejects s.cfg s.row)
    ∧ t.fTrunc = scanTruncated s.cfg s.row

/-- R113, R108, R109: from any state in IDLE or DONE with `start = 1`, the environment leaving the invocation alone, the
machine reaches DONE within the steps R109 allows, having emitted exactly the scan's records in order, with `count`
their number and the flags as R113 says. -/
def Obligations.InvocationComputesTheScan : Prop :=
  ∀ (s : State) (p : Pins) (rest : List Stimulus), s.cfg.wf = true → (s.fsm = .idle ∨ s.fsm = .done) →
    s.stimuli = .pins p :: rest → p.start = true → s.undisturbed = true →
    let row := s.rowNamed p.rowSel
    ∃ k t, k ≤ 6 * (row.len / s.cfg.scanStep + 1) + 3 ∧ steps k s = .next t ∧ t.fsm = .done
      ∧ t.emitted = s.emitted ++ scan s.cfg row ∧ t.count = scanCount s.cfg row
      ∧ (t.fMatch = true ↔ ∃ i, occursAt s.cfg row i = true)
      ∧ (t.fRej = true ↔ ∃ m ∈ candidates s.cfg row, rejects s.cfg row m = true)
      ∧ t.fTrunc = scanTruncated s.cfg row
end

