-- ==== Sys2Proof/Laws/Encoding.lean ====
section
/-! SUPPORT. The arithmetic of concatenated bytes, and that fields and frame bytes determine each other. -/

namespace Sys2Proof

/-- A byte appended below is worth its value; what stands above is worth 256 times its own (R8 (c)). -/
theorem toNat_append_byte {n : Nat} (x : BitVec n) (b : Byte) : (x ++ b).toNat = x.toNat * 256 + b.toNat := by
  have hb : b.toNat < 2 ^ 8 := b.isLt
  rw [BitVec.toNat_append, ← Nat.shiftLeft_add_eq_or_of_lt hb, Nat.shiftLeft_eq]

theorem toNat_extract_byte {n : Nat} (x : BitVec n) (k : Nat) :
    (x.extractLsb' k 8).toNat = x.toNat / 2 ^ k % 256 := by
  rw [BitVec.extractLsb'_toNat, Nat.shiftRight_eq_div_pow]

/-- The fields assembled from a frame's bytes give the bytes back (R73). -/
theorem ofFields_of_bytes (b : RawFrame) :
    RawFrame.ofFields (b.b0 ++ b.b1 ++ b.b2) (b.b3 ++ b.b4) b.b5 b.b6 b.b7 = b := by
  obtain ⟨b0, b1, b2, b3, b4, b5, b6, b7⟩ := b
  have l0 := b0.isLt
  have l1 := b1.isLt
  have l2 := b2.isLt
  have l3 := b3.isLt
  have l4 := b4.isLt
  simp only [RawFrame.ofFields, RawFrame.mk.injEq, and_true]
  refine ⟨?_, ?_, ?_, ?_, ?_⟩ <;> apply BitVec.eq_of_toNat_eq <;> rw [toNat_extract_byte] <;>
    simp only [toNat_append_byte] <;> omega

/-- The bytes of fields give the fields back. -/
theorem fields_of_ofFields (ident : BitVec 24) (pressure : BitVec 16) (tempRaw status checksum : Byte) :
    let b := RawFrame.ofFields ident pressure tempRaw status checksum
    b.b0 ++ b.b1 ++ b.b2 = ident ∧ b.b3 ++ b.b4 = pressure := by
  have li := ident.isLt
  have lp := pressure.isLt
  simp only [RawFrame.ofFields]
  refine ⟨?_, ?_⟩ <;> apply BitVec.eq_of_toNat_eq <;> simp only [toNat_append_byte, toNat_extract_byte] <;> omega

/-- A region of eleven bytes that begins with the preamble decodes to the frame in it. -/
theorem decode_region {bytes : List Byte} {b : RawFrame} (h : bytes = preambleBytes ++ b.bytes) :
    decode bytes = .ok (.tpmsFrame (b.b0 ++ b.b1 ++ b.b2) (b.b3 ++ b.b4) b.b5 b.b6 b.b7, []) := by
  subst h
  rfl

/-- A selector's byte decodes to the operation it selects. -/
theorem decode_selectorByte (sel : BitVec 4) : decode [selectorByte sel] = .ok (decodeSelector sel, []) := by
  revert sel
  decide

end Sys2Proof
end

