-- ==== Sys2Proof/Laws/LevelF.lean ====
section
/-! SUPPORT. The laws of the search and of the scan loop: what the bounded recursions answer, with no trace of their
bound. -/

namespace Sys2Proof.Machine

variable {c : Cfg} {row : Row}

theorem occursAt_le {i : Nat} (h : occursAt c row i = true) : i + c.patternLen ≤ row.len := by
  simp only [occursAt, Bool.and_eq_true, decide_eq_true_eq] at h
  exact h.1

/-- The search answers the first occurrence among its positions. -/
theorem locateFrom_eq_some {n i k : Nat} :
    locateFrom c row n i = some k
      ↔ i ≤ k ∧ k < i + n ∧ occursAt c row k = true ∧ ∀ j, i ≤ j → j < k → occursAt c row j = false := by
  induction n generalizing i with
  | zero => simp [locateFrom]; omega
  | succ n ih =>
    rw [locateFrom]
    by_cases h : occursAt c row i = true
    · rw [if_pos h, Option.some.injEq]
      constructor
      · rintro rfl
        exact ⟨le_rfl, by omega, h, fun j h1 h2 => by omega⟩
      · rintro ⟨h1, -, -, h4⟩
        by_contra hne
        have := h4 i le_rfl (by omega)
        simp [this] at h
    · rw [if_neg h, ih]
      constructor
      · rintro ⟨h1, h2, h3, h4⟩
        refine ⟨by omega, by omega, h3, fun j h5 h6 => ?_⟩
        rcases Nat.lt_or_ge i j with h7 | h7
        · exact h4 j h7 h6
        · have : j = i := by omega
          subst this
          simpa using h
      · rintro ⟨h1, h2, h3, h4⟩
        have hik : i ≠ k := by rintro rfl; exact h h3
        exact ⟨by omega, by omega, h3, fun j h5 h6 => h4 j (by omega) h6⟩

/-- The search answers nothing exactly when none of its positions is an occurrence. -/
theorem locateFrom_eq_none {n i : Nat} :
    locateFrom c row n i = none ↔ ∀ j, i ≤ j → j < i + n → occursAt c row j = false := by
  induction n generalizing i with
  | zero => simp only [locateFrom, true_iff]; intro j h1 h2; omega
  | succ n ih =>
    rw [locateFrom]
    by_cases h : occursAt c row i = true
    · rw [if_pos h]
      simp only [reduceCtorEq, false_iff, not_forall]
      exact ⟨i, le_rfl, by omega, by simp [h]⟩
    · rw [if_neg h, ih]
      constructor
      · intro h4 j h5 h6
        rcases Nat.lt_or_ge i j with h7 | h7
        · exact h4 j h7 (by omega)
        · have : j = i := by omega
          subst this
          simpa using h
      · intro h4 j h5 h6
        exact h4 j (by omega) (by omega)

/-- Iterations the loop can still make from `pos`. -/
theorem locate_bound {pos m : Nat} (h : locate c row pos = some m) : pos ≤ m ∧ m + c.patternLen ≤ row.len := by
  obtain ⟨h1, -, h3, -⟩ := locateFrom_eq_some.1 h
  exact ⟨h1, occursAt_le h3⟩

theorem locate_past_end {pos : Nat} (h : row.len < pos + c.patternLen) : locate c row pos = none := by
  rw [locate, locateFrom_eq_none]
  intro j h1 h2
  omega

/-- Once the bound exceeds the positions left, one more iteration changes nothing. -/
theorem scanFrom_succ (hs : 1 ≤ c.scanStep) {n pos : Nat} (h : row.len < pos + n) :
    scanFrom c row (n + 1) pos = scanFrom c row n pos := by
  induction n generalizing pos with
  | zero => simp [scanFrom, locate_past_end (c := c) (row := row) (pos := pos) (by omega)]
  | succ n ih =>
    rw [scanFrom]
    conv_rhs => rw [scanFrom]
    cases hl : locate c row pos with
    | none => rfl
    | some m =>
      have := locate_bound hl
      simp only
      rw [ih (by omega)]

theorem candidatesFrom_succ (hs : 1 ≤ c.scanStep) {n pos : Nat} (h : row.len < pos + n) :
    candidatesFrom c row (n + 1) pos = candidatesFrom c row n pos := by
  induction n generalizing pos with
  | zero => simp [candidatesFrom, locate_past_end (c := c) (row := row) (pos := pos) (by omega)]
  | succ n ih =>
    rw [candidatesFrom]
    conv_rhs => rw [candidatesFrom]
    cases hl : locate c row pos with
    | none => rfl
    | some m =>
      have := locate_bound hl
      simp only
      rw [ih (by omega)]

theorem truncatedFrom_succ (hs : 1 ≤ c.scanStep) {n pos : Nat} (h : row.len < pos + n) :
    truncatedFrom c row (n + 1) pos = truncatedFrom c row n pos := by
  induction n generalizing pos with
  | zero => simp [truncatedFrom, locate_past_end (c := c) (row := row) (pos := pos) (by omega)]
  | succ n ih =>
    rw [truncatedFrom]
    conv_rhs => rw [truncatedFrom]
    cases hl : locate c row pos with
    | none => rfl
    | some m =>
      have := locate_bound hl
      simp only
      rw [ih (by omega)]

theorem skipScanFrom_succ (hs : 1 ≤ c.scanStep) {n pos : Nat} (h : row.len < pos + n) :
    skipScanFrom c row (n + 1) pos = skipScanFrom c row n pos := by
  induction n generalizing pos with
  | zero => simp [skipScanFrom, locate_past_end (c := c) (row := row) (pos := pos) (by omega)]
  | succ n ih =>
    rw [skipScanFrom]
    conv_rhs => rw [skipScanFrom]
    cases hl : locate c row pos with
    | none => rfl
    | some m =>
      have := locate_bound hl
      simp only
      rw [ih (by omega)]

/-- The loop from `pos`, one iteration unrolled (R100). -/
theorem scanAt_eq (hs : 1 ≤ c.scanStep) (pos : Nat) :
    scanAt c row pos = match locate c row pos with
      | none => []
      | some m => if spanOk c row m then candidateRecords c row m ++ scanAt c row (m + c.scanStep) else [] := by
  rw [scanAt, scanFrom]
  cases hl : locate c row pos with
  | none => rfl
  | some m => simp only [scanAt]; rw [scanFrom_succ hs (by omega)]

theorem candidatesAt_eq (hs : 1 ≤ c.scanStep) (pos : Nat) :
    candidatesAt c row pos = match locate c row pos with
      | none => []
      | some m => if spanOk c row m then m :: candidatesAt c row (m + c.scanStep) else [] := by
  rw [candidatesAt, candidatesFrom]
  cases hl : locate c row pos with
  | none => rfl
  | some m => simp only [candidatesAt]; rw [candidatesFrom_succ hs (by omega)]

theorem truncatedAt_eq (hs : 1 ≤ c.scanStep) (pos : Nat) :
    truncatedAt c row pos = match locate c row pos with
      | none => false
      | some m => if spanOk c row m then truncatedAt c row (m + c.scanStep) else true := by
  rw [truncatedAt, truncatedFrom]
  cases hl : locate c row pos with
  | none => rfl
  | some m => simp only [truncatedAt]; rw [truncatedFrom_succ hs (by omega)]

/-- Bit `j` of a byte of the row, the first bit the most significant (R54). -/
theorem readBits_testBit (p : Nat) {w j : Nat} (h : j < w) :
    (readBits row p w).testBit (w - 1 - j) = rowBit row (p + j) := by
  induction w with
  | zero => omega
  | succ n ih =>
    rw [readBits]
    have hb : (rowBit row (p + n)).toNat ≤ 1 := Bool.toNat_le _
    rcases Nat.lt_or_eq_of_le (Nat.lt_succ_iff.1 h) with hj | rfl
    · obtain ⟨i, hi⟩ : ∃ i, n + 1 - 1 - j = i + 1 := ⟨n - 1 - j, by omega⟩
      have hi' : i = n - 1 - j := by omega
      have hd : (2 * readBits row p n + (rowBit row (p + n)).toNat) / 2 = readBits row p n := by omega
      rw [hi, Nat.testBit_succ, hd, hi', ih hj]
    · have : j + 1 - 1 - j = 0 := by omega
      rw [this, Nat.testBit_zero]
      cases rowBit row (p + j) <;> simp [Nat.add_mod]

theorem readBits_lt (p w : Nat) : readBits row p w < 2 ^ w := by
  induction w with
  | zero => simp [readBits]
  | succ n ih =>
    have hb : (rowBit row (p + n)).toNat ≤ 1 := Bool.toNat_le _
    rw [readBits, pow_succ]
    omega

/-- Extraction answers a frame exactly when 64 bits remain (R122), and then the bytes there. -/
theorem extractFrame_eq_some {fs : Nat} {b : RawFrame} :
    extractFrame row fs = some b ↔ fs + 64 ≤ row.len ∧ b = frameBytesAt row fs := by
  rw [extractFrame]
  split_ifs with h
  · simp [h, eq_comm]
  · simp [h]

theorem extractFrame_eq_none {fs : Nat} : extractFrame row fs = none ↔ row.len < fs + 64 := by
  rw [extractFrame]
  split_ifs with h
  · simp; omega
  · simp; omega

theorem spanOk_iff {m : Nat} : spanOk c row m = true ↔ m + c.tailAlign + c.minSpan ≤ row.len := by
  simp [spanOk]

end Sys2Proof.Machine
end

