-- ==== Sys2Proof/Laws/Memory.lean ====
section
/-! SUPPORT. The laws of the provider's rows: a read after a write, and the canonical form every write keeps. -/

namespace Sys2Proof

open Machine

/-! ### Cells -/

/-- Addresses rising and no byte 00 listed. -/
def Cells.canonical (cells : List Host.Cell) : Prop :=
  (cells.map (·.1)).Pairwise (· < ·) ∧ ∀ cell ∈ cells, cell.2 ≠ 0

theorem writeCell_addresses {a : Nat} {v : Byte} {cells : List Host.Cell} {x : Host.Cell}
    (h : x ∈ writeCell a v cells) : x = (a, v) ∧ v ≠ 0 ∨ x ∈ cells := by
  induction cells with
  | nil => simp only [writeCell] at h; split at h <;> simp_all
  | cons c rest ih =>
    obtain ⟨b, w⟩ := c
    simp only [writeCell] at h
    split_ifs at h <;> simp only [List.mem_cons] at h ⊢ <;> tauto

theorem writeCell_canonical {a : Nat} {v : Byte} {cells : List Host.Cell} (h : Cells.canonical cells) :
    Cells.canonical (writeCell a v cells) := by
  induction cells with
  | nil =>
    simp only [writeCell]
    split_ifs with hv
    · simp [Cells.canonical]
    · simpa [Cells.canonical] using hv
  | cons c rest ih =>
    obtain ⟨b, w⟩ := c
    obtain ⟨hs, hn⟩ := h
    simp only [List.map_cons, List.pairwise_cons, List.mem_map, forall_exists_index, and_imp,
      forall_apply_eq_imp_iff₂] at hs
    have hrest : Cells.canonical rest := ⟨hs.2, fun x hx => hn x (List.mem_cons_of_mem _ hx)⟩
    have hw : w ≠ 0 := hn (b, w) (by simp)
    have hn' : ∀ cell ∈ rest, cell.2 ≠ 0 := hrest.2
    simp only [writeCell]
    split_ifs with hab hv heq hv'
    · refine ⟨?_, hn⟩
      simpa using hs
    · refine ⟨?_, ?_⟩
      · simp only [List.map_cons, List.pairwise_cons, List.mem_cons, List.mem_map]
        refine ⟨?_, by simpa using hs⟩
        rintro x (rfl | ⟨y, hy, rfl⟩)
        · exact hab
        · exact hab.trans (hs.1 _ hy)
      · intro x hx
        rcases List.mem_cons.1 hx with rfl | hx
        · exact hv
        · exact hn x hx
    · exact hrest
    · subst heq
      refine ⟨by simpa using hs, ?_⟩
      intro x hx
      rcases List.mem_cons.1 hx with rfl | hx
      · exact hv'
      · exact hn' x hx
    · obtain ⟨h1, h2⟩ := ih hrest
      refine ⟨?_, ?_⟩
      · simp only [List.map_cons, List.pairwise_cons, List.mem_map, forall_exists_index, and_imp,
          forall_apply_eq_imp_iff₂]
        refine ⟨?_, h1⟩
        intro x hx
        rcases writeCell_addresses hx with ⟨rfl, -⟩ | hx
        · show b < a
          omega
        · exact hs.1 x hx
      · intro x hx
        rcases List.mem_cons.1 hx with rfl | hx
        · exact hw
        · exact h2 x hx

theorem cellAt_eq_zero {cells : List Host.Cell} {a : Nat} (h : ∀ x ∈ cells, a < x.1) : cellAt cells a = 0 := by
  induction cells with
  | nil => rfl
  | cons c rest ih =>
    obtain ⟨b, w⟩ := c
    have hb : a < b := h (b, w) (by simp)
    simp only [cellAt, if_neg hb.ne]
    exact ih fun x hx => h x (List.mem_cons_of_mem _ hx)

/-- A read after a write: the written byte there, the old one elsewhere. -/
theorem cellAt_writeCell {cells : List Host.Cell} (h : Cells.canonical cells) (a k : Nat) (v : Byte) :
    cellAt (writeCell a v cells) k = if k = a then v else cellAt cells k := by
  induction cells with
  | nil =>
    simp only [writeCell]
    split_ifs with hv hk <;> simp_all [cellAt]
  | cons c rest ih =>
    obtain ⟨b, w⟩ := c
    obtain ⟨hs, hn⟩ := h
    simp only [List.map_cons, List.pairwise_cons, List.mem_map, forall_exists_index, and_imp,
      forall_apply_eq_imp_iff₂] at hs
    have hrest : Cells.canonical rest := ⟨hs.2, fun x hx => hn x (List.mem_cons_of_mem _ hx)⟩
    have hgone : ∀ k ≤ b, cellAt rest k = 0 := fun k hk =>
      cellAt_eq_zero fun x hx => lt_of_le_of_lt hk (hs.1 x hx)
    simp only [writeCell]
    split_ifs with hab hv hk heq hv hk heq2 hk
    · subst hk hv
      simp [cellAt, hab.ne, hgone k hab.le]
    · rfl
    · simp [cellAt, *]
    · simp [cellAt, *]
    all_goals simp_all [cellAt]

theorem storeBytes_canonical {bytes : List Byte} {a : Nat} {cells : List Host.Cell} (h : Cells.canonical cells) :
    Cells.canonical (storeBytes a bytes cells) := by
  induction bytes generalizing a cells with
  | nil => exact h
  | cons v rest ih => exact ih (writeCell_canonical h)

theorem cellAt_storeBytes {bytes : List Byte} {a : Nat} {cells : List Host.Cell} (h : Cells.canonical cells)
    (k : Nat) :
    cellAt (storeBytes a bytes cells) k
      = if a ≤ k ∧ k < a + bytes.length then bytes.getD (k - a) 0 else cellAt cells k := by
  induction bytes generalizing a cells with
  | nil => simp [storeBytes]
  | cons v rest ih =>
    rw [storeBytes, ih (writeCell_canonical h), cellAt_writeCell h]
    by_cases hk : k = a
    · subst hk
      simp
    · by_cases h1 : a + 1 ≤ k ∧ k < a + 1 + rest.length
      · have h2 : a ≤ k ∧ k < a + (v :: rest).length := by simp; omega
        rw [if_pos h1, if_pos h2]
        obtain ⟨j, hj⟩ : ∃ j, k - a = j + 1 := ⟨k - a - 1, by omega⟩
        have hj' : k - (a + 1) = j := by omega
        simp [hj, hj']
      · have h2 : ¬ (a ≤ k ∧ k < a + (v :: rest).length) := by simp; omega
        rw [if_neg h1, if_neg h2, if_neg hk]

/-! ### Rows from bits -/

theorem packBits_lt (bits : List Bool) (p w : Nat) : packBits bits p w < 2 ^ w := by
  induction w with
  | zero => simp [packBits]
  | succ n ih =>
    have hb : (bits.getD (p + n) false).toNat ≤ 1 := Bool.toNat_le _
    rw [packBits, pow_succ]
    omega

theorem packBits_testBit (bits : List Bool) (p : Nat) {w j : Nat} (h : j < w) :
    (packBits bits p w).testBit (w - 1 - j) = bits.getD (p + j) false := by
  induction w with
  | zero => omega
  | succ n ih =>
    rw [packBits]
    rcases Nat.lt_or_eq_of_le (Nat.lt_succ_iff.1 h) with hj | rfl
    · obtain ⟨i, hi⟩ : ∃ i, n + 1 - 1 - j = i + 1 := ⟨n - 1 - j, by omega⟩
      have hi' : i = n - 1 - j := by omega
      rw [hi, Nat.testBit_succ]
      have : (2 * packBits bits p n + (bits.getD (p + n) false).toNat) / 2 = packBits bits p n := by
        have hb : (bits.getD (p + n) false).toNat ≤ 1 := Bool.toNat_le _
        omega
      rw [this, hi', ih hj]
    · have : j + 1 - 1 - j = 0 := by omega
      rw [this, Nat.testBit_zero]
      cases bits.getD (p + j) false <;> simp [Nat.add_mod]

theorem packBits_mod (bits : List Bool) (p w : Nat) {z : Nat} (hz : z ≤ w)
    (h : ∀ j, w - z ≤ j → j < w → bits.getD (p + j) false = false) : packBits bits p w % 2 ^ z = 0 := by
  induction z generalizing w with
  | zero => simp [Nat.mod_one]
  | succ n ih =>
    obtain ⟨k, rfl⟩ : ∃ k, w = k + 1 := ⟨w - 1, by omega⟩
    have h0 : bits.getD (p + k) false = false := h k (by omega) (by omega)
    have := ih k (by omega) fun j h1 h2 => h j (by omega) (by omega)
    rw [packBits, h0, pow_succ]
    simp only [Bool.toNat_false, add_zero]
    rw [Nat.mul_comm (2 ^ n) 2, Nat.mul_mod_mul_left, this, mul_zero]

@[simp] theorem packBytes_length (bits : List Bool) : (packBytes bits).length = (bits.length + 7) / 8 := by
  simp [packBytes]

theorem emptyCells_canonical : Cells.canonical [] := by simp [Cells.canonical]

/-- Byte `k` of the row that holds `bits`. -/
theorem byteAt_ofBits (bits : List Bool) (k : Nat) : byteAt (Row.ofBits bits) k = packByte bits k := by
  simp only [byteAt, Row.ofBits, cellAt_storeBytes emptyCells_canonical, packBytes_length, zero_le, true_and,
    zero_add, Nat.sub_zero, cellAt]
  split_ifs with h
  · rw [packBytes, List.getD_eq_getElem?_getD, List.getElem?_map, List.getElem?_range h]
    rfl
  · symm
    have : packBits bits (8 * k) 8 % 2 ^ 8 = 0 := by
      refine packBits_mod bits (8 * k) 8 le_rfl fun j _ _ => ?_
      rw [List.getD_eq_getElem?_getD, List.getElem?_eq_none (by omega)]
      rfl
    apply BitVec.eq_of_toNat_eq
    simpa [packByte] using this

/-- The bits of the row that holds `bits` are `bits` (R8 (a), R52, R53). -/
theorem rowBit_ofBits (bits : List Bool) (i : Nat) : rowBit (Row.ofBits bits) i = bits.getD i false := by
  rw [rowBit, byteAt_ofBits, packByte, BitVec.getLsbD_ofNat]
  have hlt : 7 - i % 8 < 8 := by omega
  have hpos : i % 8 < 8 := Nat.mod_lt _ (by omega)
  have := packBits_testBit bits (8 * (i / 8)) hpos
  have he : (8 : Nat) - 1 - i % 8 = 7 - i % 8 := by omega
  rw [he] at this
  have hi : 8 * (i / 8) + i % 8 = i := Nat.div_add_mod i 8
  rw [hi] at this
  simp [hlt, this]

@[simp] theorem Row.ofBits_len (bits : List Bool) : (Row.ofBits bits).len = bits.length := rfl

theorem cell_mem_cellAt {cells : List Host.Cell} (h : Cells.canonical cells) {x : Host.Cell} (hx : x ∈ cells) :
    cellAt cells x.1 = x.2 := by
  induction cells with
  | nil => simp at hx
  | cons c rest ih =>
    obtain ⟨b, w⟩ := c
    obtain ⟨hs, hn⟩ := h
    simp only [List.map_cons, List.pairwise_cons, List.mem_map, forall_exists_index, and_imp,
      forall_apply_eq_imp_iff₂] at hs
    rcases List.mem_cons.1 hx with rfl | hx
    · simp [cellAt]
    · have hlt := hs.1 x hx
      rw [cellAt, if_neg (by omega)]
      exact ih ⟨hs.2, fun y hy => hn y (List.mem_cons_of_mem _ hy)⟩ hx

/-- A row made from bits is canonical. -/
theorem Row.ofBits_wf (bits : List Bool) : (Row.ofBits bits).wf = true := by
  have hc : Cells.canonical (Row.ofBits bits).cells := storeBytes_canonical emptyCells_canonical
  simp only [Row.wf, Bool.and_eq_true, decide_eq_true_eq, List.all_eq_true, bne_iff_ne]
  refine ⟨hc.1, fun x hx => ?_⟩
  have hv : x.2 = packByte bits x.1 := by
    rw [← byteAt_ofBits, byteAt, cell_mem_cellAt hc hx]
  have hbits : ∀ j, bits.length ≤ j → bits.getD j false = false := fun j hj => by
    rw [List.getD_eq_getElem?_getD, List.getElem?_eq_none hj]; rfl
  have hlt : packBits bits (8 * x.1) 8 < 2 ^ 8 := packBits_lt _ _ _
  have hnat : x.2.toNat = packBits bits (8 * x.1) 8 := by
    rw [hv, packByte, BitVec.toNat_ofNat, Nat.mod_eq_of_lt hlt]
  have hin : 8 * x.1 < bits.length := by
    by_contra hge
    apply hc.2 x hx
    apply BitVec.eq_of_toNat_eq
    rw [hnat]
    have := packBits_mod bits (8 * x.1) 8 (z := 8) le_rfl fun j _ _ => hbits _ (by omega)
    rw [Nat.mod_eq_of_lt hlt] at this
    simpa using this
  refine ⟨⟨hc.2 x hx, hin⟩, ?_⟩
  rw [hnat, Row.ofBits_len]
  exact packBits_mod bits _ 8 (by omega) fun j h1 h2 => hbits _ (by omega)

/-! ### The provider's rows -/

theorem lookupRow_setRow (rows : Memory) (r q : Nat) (row : Row) :
    lookupRow (rows.setRow r row) q = if q = r then some row else lookupRow rows q := by
  induction rows with
  | nil => simp [Memory.setRow, lookupRow]
  | cons e rest ih =>
    obtain ⟨p, old⟩ := e
    simp only [Memory.setRow]
    split_ifs with h1 h2 h3 h3 <;> simp_all [lookupRow]

theorem setRow_mem {rows : Memory} {r : Nat} {row : Row} {e : Nat × Row} (h : e ∈ rows.setRow r row) :
    e = (r, row) ∨ e ∈ rows := by
  induction rows with
  | nil => simp_all [Memory.setRow]
  | cons c rest ih =>
    obtain ⟨p, old⟩ := c
    simp only [Memory.setRow] at h
    split_ifs at h <;> simp only [List.mem_cons] at h ⊢ <;> tauto

/-- Placing a canonical row keeps the canonical form. -/
theorem Memory.setRow_wf {rows : Memory} {r : Nat} {row : Row} (h : rows.wf = true) (hr : row.wf = true) :
    (rows.setRow r row).wf = true := by
  simp only [Memory.wf, Bool.and_eq_true, decide_eq_true_eq, List.all_eq_true] at h ⊢
  refine ⟨?_, fun e he => ?_⟩
  · obtain ⟨hs, -⟩ := h
    induction rows with
    | nil => simp [Memory.setRow]
    | cons c rest ih =>
      obtain ⟨p, old⟩ := c
      simp only [List.map_cons, List.pairwise_cons, List.mem_map, forall_exists_index, and_imp,
        forall_apply_eq_imp_iff₂] at hs
      simp only [Memory.setRow]
      split_ifs with h1 h2
      · simp only [List.map_cons, List.pairwise_cons, List.mem_cons, List.mem_map]
        refine ⟨?_, by simpa using hs⟩
        rintro x (rfl | ⟨y, hy, rfl⟩)
        · exact h1
        · exact h1.trans (hs.1 _ hy)
      · subst h2
        simpa using hs
      · simp only [List.map_cons, List.pairwise_cons, List.mem_map, forall_exists_index, and_imp,
          forall_apply_eq_imp_iff₂]
        refine ⟨fun x hx => ?_, ih hs.2⟩
        rcases setRow_mem hx with rfl | hx
        · show p < r
          omega
        · exact hs.1 x hx
  · rcases setRow_mem he with rfl | he
    · exact hr
    · exact h.2 e he

end Sys2Proof
end

