-- ==== Sys2Proof/Laws/State.lean ====
section
/-! SUPPORT. What each named write leaves in each field of the state. -/

namespace Sys2Proof.Machine

variable (s : State)

@[simp] theorem State.enter_cfg (f : Fsm) : (s.enter f).cfg = s.cfg := rfl
@[simp] theorem State.enter_rows (f : Fsm) : (s.enter f).rows = s.rows := rfl
@[simp] theorem State.enter_stimuli (f : Fsm) : (s.enter f).stimuli = s.stimuli := rfl
@[simp] theorem State.enter_emitted (f : Fsm) : (s.enter f).emitted = s.emitted := rfl
@[simp] theorem State.enter_fsm (f : Fsm) : (s.enter f).fsm = f := rfl
@[simp] theorem State.enter_pos (f : Fsm) : (s.enter f).pos = s.pos := rfl
@[simp] theorem State.enter_m (f : Fsm) : (s.enter f).m = s.m := rfl
@[simp] theorem State.enter_fb (f : Fsm) : (s.enter f).fb = s.fb := rfl
@[simp] theorem State.enter_acc (f : Fsm) : (s.enter f).acc = s.acc := rfl
@[simp] theorem State.enter_count (f : Fsm) : (s.enter f).count = s.count := rfl
@[simp] theorem State.enter_rsel (f : Fsm) : (s.enter f).rsel = s.rsel := rfl
@[simp] theorem State.enter_fMatch (f : Fsm) : (s.enter f).fMatch = s.fMatch := rfl
@[simp] theorem State.enter_fRej (f : Fsm) : (s.enter f).fRej = s.fRej := rfl
@[simp] theorem State.enter_fTrunc (f : Fsm) : (s.enter f).fTrunc = s.fTrunc := rfl
@[simp] theorem State.enter_lastErr (f : Fsm) : (s.enter f).lastErr = s.lastErr := rfl
@[simp] theorem State.enter_errM (f : Fsm) : (s.enter f).errM = s.errM := rfl
@[simp] theorem State.enter_freeIdx (f : Fsm) : (s.enter f).freeIdx = s.freeIdx := rfl

@[simp] theorem State.found_cfg (i : Nat) : (s.found i).cfg = s.cfg := rfl
@[simp] theorem State.found_rows (i : Nat) : (s.found i).rows = s.rows := rfl
@[simp] theorem State.found_stimuli (i : Nat) : (s.found i).stimuli = s.stimuli := rfl
@[simp] theorem State.found_emitted (i : Nat) : (s.found i).emitted = s.emitted := rfl
@[simp] theorem State.found_fsm (i : Nat) : (s.found i).fsm = .spanchk := rfl
@[simp] theorem State.found_pos (i : Nat) : (s.found i).pos = s.pos := rfl
@[simp] theorem State.found_m (i : Nat) : (s.found i).m = i := rfl
@[simp] theorem State.found_fb (i : Nat) : (s.found i).fb = s.fb := rfl
@[simp] theorem State.found_acc (i : Nat) : (s.found i).acc = s.acc := rfl
@[simp] theorem State.found_count (i : Nat) : (s.found i).count = s.count := rfl
@[simp] theorem State.found_rsel (i : Nat) : (s.found i).rsel = s.rsel := rfl
@[simp] theorem State.found_fMatch (i : Nat) : (s.found i).fMatch = true := rfl
@[simp] theorem State.found_fRej (i : Nat) : (s.found i).fRej = s.fRej := rfl
@[simp] theorem State.found_fTrunc (i : Nat) : (s.found i).fTrunc = s.fTrunc := rfl
@[simp] theorem State.found_lastErr (i : Nat) : (s.found i).lastErr = s.lastErr := rfl
@[simp] theorem State.found_errM (i : Nat) : (s.found i).errM = s.errM := rfl
@[simp] theorem State.found_freeIdx (i : Nat) : (s.found i).freeIdx = s.freeIdx := rfl

@[simp] theorem State.truncate_cfg : (s.truncate).cfg = s.cfg := rfl
@[simp] theorem State.truncate_rows : (s.truncate).rows = s.rows := rfl
@[simp] theorem State.truncate_stimuli : (s.truncate).stimuli = s.stimuli := rfl
@[simp] theorem State.truncate_emitted : (s.truncate).emitted = s.emitted := rfl
@[simp] theorem State.truncate_fsm : (s.truncate).fsm = .done := rfl
@[simp] theorem State.truncate_pos : (s.truncate).pos = s.pos := rfl
@[simp] theorem State.truncate_m : (s.truncate).m = s.m := rfl
@[simp] theorem State.truncate_fb : (s.truncate).fb = s.fb := rfl
@[simp] theorem State.truncate_acc : (s.truncate).acc = s.acc := rfl
@[simp] theorem State.truncate_count : (s.truncate).count = s.count := rfl
@[simp] theorem State.truncate_rsel : (s.truncate).rsel = s.rsel := rfl
@[simp] theorem State.truncate_fMatch : (s.truncate).fMatch = s.fMatch := rfl
@[simp] theorem State.truncate_fRej : (s.truncate).fRej = s.fRej := rfl
@[simp] theorem State.truncate_fTrunc : (s.truncate).fTrunc = true := rfl
@[simp] theorem State.truncate_lastErr : (s.truncate).lastErr = s.lastErr := rfl
@[simp] theorem State.truncate_errM : (s.truncate).errM = s.errM := rfl
@[simp] theorem State.truncate_freeIdx : (s.truncate).freeIdx = s.freeIdx := rfl

@[simp] theorem State.loadFrame_cfg (b : RawFrame) : (s.loadFrame b).cfg = s.cfg := rfl
@[simp] theorem State.loadFrame_rows (b : RawFrame) : (s.loadFrame b).rows = s.rows := rfl
@[simp] theorem State.loadFrame_stimuli (b : RawFrame) : (s.loadFrame b).stimuli = s.stimuli := rfl
@[simp] theorem State.loadFrame_emitted (b : RawFrame) : (s.loadFrame b).emitted = s.emitted := rfl
@[simp] theorem State.loadFrame_fsm (b : RawFrame) : (s.loadFrame b).fsm = .sum8chk := rfl
@[simp] theorem State.loadFrame_pos (b : RawFrame) : (s.loadFrame b).pos = s.pos := rfl
@[simp] theorem State.loadFrame_m (b : RawFrame) : (s.loadFrame b).m = s.m := rfl
@[simp] theorem State.loadFrame_fb (b : RawFrame) : (s.loadFrame b).fb = b := rfl
@[simp] theorem State.loadFrame_acc (b : RawFrame) : (s.loadFrame b).acc = s.acc := rfl
@[simp] theorem State.loadFrame_count (b : RawFrame) : (s.loadFrame b).count = s.count := rfl
@[simp] theorem State.loadFrame_rsel (b : RawFrame) : (s.loadFrame b).rsel = s.rsel := rfl
@[simp] theorem State.loadFrame_fMatch (b : RawFrame) : (s.loadFrame b).fMatch = s.fMatch := rfl
@[simp] theorem State.loadFrame_fRej (b : RawFrame) : (s.loadFrame b).fRej = s.fRej := rfl
@[simp] theorem State.loadFrame_fTrunc (b : RawFrame) : (s.loadFrame b).fTrunc = s.fTrunc := rfl
@[simp] theorem State.loadFrame_lastErr (b : RawFrame) : (s.loadFrame b).lastErr = s.lastErr := rfl
@[simp] theorem State.loadFrame_errM (b : RawFrame) : (s.loadFrame b).errM = s.errM := rfl
@[simp] theorem State.loadFrame_freeIdx (b : RawFrame) : (s.loadFrame b).freeIdx = s.freeIdx := rfl

@[simp] theorem State.setAcc_cfg (v : Byte) : (s.setAcc v).cfg = s.cfg := rfl
@[simp] theorem State.setAcc_rows (v : Byte) : (s.setAcc v).rows = s.rows := rfl
@[simp] theorem State.setAcc_stimuli (v : Byte) : (s.setAcc v).stimuli = s.stimuli := rfl
@[simp] theorem State.setAcc_emitted (v : Byte) : (s.setAcc v).emitted = s.emitted := rfl
@[simp] theorem State.setAcc_fsm (v : Byte) : (s.setAcc v).fsm = s.fsm := rfl
@[simp] theorem State.setAcc_pos (v : Byte) : (s.setAcc v).pos = s.pos := rfl
@[simp] theorem State.setAcc_m (v : Byte) : (s.setAcc v).m = s.m := rfl
@[simp] theorem State.setAcc_fb (v : Byte) : (s.setAcc v).fb = s.fb := rfl
@[simp] theorem State.setAcc_acc (v : Byte) : (s.setAcc v).acc = v := rfl
@[simp] theorem State.setAcc_count (v : Byte) : (s.setAcc v).count = s.count := rfl
@[simp] theorem State.setAcc_rsel (v : Byte) : (s.setAcc v).rsel = s.rsel := rfl
@[simp] theorem State.setAcc_fMatch (v : Byte) : (s.setAcc v).fMatch = s.fMatch := rfl
@[simp] theorem State.setAcc_fRej (v : Byte) : (s.setAcc v).fRej = s.fRej := rfl
@[simp] theorem State.setAcc_fTrunc (v : Byte) : (s.setAcc v).fTrunc = s.fTrunc := rfl
@[simp] theorem State.setAcc_lastErr (v : Byte) : (s.setAcc v).lastErr = s.lastErr := rfl
@[simp] theorem State.setAcc_errM (v : Byte) : (s.setAcc v).errM = s.errM := rfl
@[simp] theorem State.setAcc_freeIdx (v : Byte) : (s.setAcc v).freeIdx = s.freeIdx := rfl

@[simp] theorem State.raise_cfg (k : ErrKind) : (s.raise k).cfg = s.cfg := rfl
@[simp] theorem State.raise_rows (k : ErrKind) : (s.raise k).rows = s.rows := rfl
@[simp] theorem State.raise_stimuli (k : ErrKind) : (s.raise k).stimuli = s.stimuli := rfl
@[simp] theorem State.raise_emitted (k : ErrKind) : (s.raise k).emitted = s.emitted := rfl
@[simp] theorem State.raise_fsm (k : ErrKind) : (s.raise k).fsm = .advance := rfl
@[simp] theorem State.raise_pos (k : ErrKind) : (s.raise k).pos = s.pos := rfl
@[simp] theorem State.raise_m (k : ErrKind) : (s.raise k).m = s.m := rfl
@[simp] theorem State.raise_fb (k : ErrKind) : (s.raise k).fb = s.fb := rfl
@[simp] theorem State.raise_acc (k : ErrKind) : (s.raise k).acc = s.acc := rfl
@[simp] theorem State.raise_count (k : ErrKind) : (s.raise k).count = s.count := rfl
@[simp] theorem State.raise_rsel (k : ErrKind) : (s.raise k).rsel = s.rsel := rfl
@[simp] theorem State.raise_fMatch (k : ErrKind) : (s.raise k).fMatch = s.fMatch := rfl
@[simp] theorem State.raise_fRej (k : ErrKind) : (s.raise k).fRej = true := rfl
@[simp] theorem State.raise_fTrunc (k : ErrKind) : (s.raise k).fTrunc = s.fTrunc := rfl
@[simp] theorem State.raise_lastErr (k : ErrKind) : (s.raise k).lastErr = some k := rfl
@[simp] theorem State.raise_errM (k : ErrKind) : (s.raise k).errM = s.m := rfl
@[simp] theorem State.raise_freeIdx (k : ErrKind) : (s.raise k).freeIdx = s.freeIdx := rfl

@[simp] theorem State.emitRecord_cfg : (s.emitRecord).cfg = s.cfg := rfl
@[simp] theorem State.emitRecord_rows : (s.emitRecord).rows = s.rows := rfl
@[simp] theorem State.emitRecord_stimuli : (s.emitRecord).stimuli = s.stimuli := rfl
@[simp] theorem State.emitRecord_emitted : (s.emitRecord).emitted = s.emitted ++ [mapFields s.cfg s.fb] := rfl
@[simp] theorem State.emitRecord_fsm : (s.emitRecord).fsm = .advance := rfl
@[simp] theorem State.emitRecord_pos : (s.emitRecord).pos = s.pos := rfl
@[simp] theorem State.emitRecord_m : (s.emitRecord).m = s.m := rfl
@[simp] theorem State.emitRecord_fb : (s.emitRecord).fb = s.fb := rfl
@[simp] theorem State.emitRecord_acc : (s.emitRecord).acc = s.acc := rfl
@[simp] theorem State.emitRecord_count : (s.emitRecord).count = s.count + 1 := rfl
@[simp] theorem State.emitRecord_rsel : (s.emitRecord).rsel = s.rsel := rfl
@[simp] theorem State.emitRecord_fMatch : (s.emitRecord).fMatch = s.fMatch := rfl
@[simp] theorem State.emitRecord_fRej : (s.emitRecord).fRej = s.fRej := rfl
@[simp] theorem State.emitRecord_fTrunc : (s.emitRecord).fTrunc = s.fTrunc := rfl
@[simp] theorem State.emitRecord_lastErr : (s.emitRecord).lastErr = s.lastErr := rfl
@[simp] theorem State.emitRecord_errM : (s.emitRecord).errM = s.errM := rfl
@[simp] theorem State.emitRecord_freeIdx : (s.emitRecord).freeIdx = s.freeIdx := rfl

@[simp] theorem State.advancePos_cfg : (s.advancePos).cfg = s.cfg := rfl
@[simp] theorem State.advancePos_rows : (s.advancePos).rows = s.rows := rfl
@[simp] theorem State.advancePos_stimuli : (s.advancePos).stimuli = s.stimuli := rfl
@[simp] theorem State.advancePos_emitted : (s.advancePos).emitted = s.emitted := rfl
@[simp] theorem State.advancePos_fsm : (s.advancePos).fsm = .locate := rfl
@[simp] theorem State.advancePos_pos : (s.advancePos).pos = s.m + s.cfg.scanStep := rfl
@[simp] theorem State.advancePos_m : (s.advancePos).m = s.m := rfl
@[simp] theorem State.advancePos_fb : (s.advancePos).fb = s.fb := rfl
@[simp] theorem State.advancePos_acc : (s.advancePos).acc = s.acc := rfl
@[simp] theorem State.advancePos_count : (s.advancePos).count = s.count := rfl
@[simp] theorem State.advancePos_rsel : (s.advancePos).rsel = s.rsel := rfl
@[simp] theorem State.advancePos_fMatch : (s.advancePos).fMatch = s.fMatch := rfl
@[simp] theorem State.advancePos_fRej : (s.advancePos).fRej = s.fRej := rfl
@[simp] theorem State.advancePos_fTrunc : (s.advancePos).fTrunc = s.fTrunc := rfl
@[simp] theorem State.advancePos_lastErr : (s.advancePos).lastErr = s.lastErr := rfl
@[simp] theorem State.advancePos_errM : (s.advancePos).errM = s.errM := rfl
@[simp] theorem State.advancePos_freeIdx : (s.advancePos).freeIdx = s.freeIdx := rfl

@[simp] theorem State.beginInvocation_cfg : (s.beginInvocation).cfg = s.cfg := rfl
@[simp] theorem State.beginInvocation_rows : (s.beginInvocation).rows = s.rows := rfl
@[simp] theorem State.beginInvocation_stimuli : (s.beginInvocation).stimuli = s.stimuli := rfl
@[simp] theorem State.beginInvocation_emitted : (s.beginInvocation).emitted = s.emitted := rfl
@[simp] theorem State.beginInvocation_fsm : (s.beginInvocation).fsm = .locate := rfl
@[simp] theorem State.beginInvocation_pos : (s.beginInvocation).pos = 0 := rfl
@[simp] theorem State.beginInvocation_m : (s.beginInvocation).m = freeIndexOf s.cfg s.freeIdx := rfl
@[simp] theorem State.beginInvocation_acc : (s.beginInvocation).acc = Config.freeByte (s.freeIdx + 2) := rfl
@[simp] theorem State.beginInvocation_count : (s.beginInvocation).count = 0 := rfl
@[simp] theorem State.beginInvocation_rsel : (s.beginInvocation).rsel = s.pins.rowSel := rfl
@[simp] theorem State.beginInvocation_fMatch : (s.beginInvocation).fMatch = false := rfl
@[simp] theorem State.beginInvocation_fRej : (s.beginInvocation).fRej = false := rfl
@[simp] theorem State.beginInvocation_fTrunc : (s.beginInvocation).fTrunc = false := rfl
@[simp] theorem State.beginInvocation_lastErr : (s.beginInvocation).lastErr = none := rfl
@[simp] theorem State.beginInvocation_errM : (s.beginInvocation).errM = freeIndexOf s.cfg (s.freeIdx + 1) := rfl
@[simp] theorem State.beginInvocation_freeIdx : (s.beginInvocation).freeIdx = s.freeIdx + 11 := rfl

@[simp] theorem State.resetBlock_cfg : (s.resetBlock).cfg = s.cfg := rfl
@[simp] theorem State.resetBlock_rows : (s.resetBlock).rows = s.rows := rfl
@[simp] theorem State.resetBlock_stimuli : (s.resetBlock).stimuli = s.stimuli := rfl
@[simp] theorem State.resetBlock_emitted : (s.resetBlock).emitted = s.emitted := rfl
@[simp] theorem State.resetBlock_fsm : (s.resetBlock).fsm = .idle := rfl
@[simp] theorem State.resetBlock_pos : (s.resetBlock).pos = 0 := rfl
@[simp] theorem State.resetBlock_m : (s.resetBlock).m = 0 := rfl
@[simp] theorem State.resetBlock_fb : (s.resetBlock).fb = ⟨0, 0, 0, 0, 0, 0, 0, 0⟩ := rfl
@[simp] theorem State.resetBlock_acc : (s.resetBlock).acc = 0 := rfl
@[simp] theorem State.resetBlock_count : (s.resetBlock).count = 0 := rfl
@[simp] theorem State.resetBlock_rsel : (s.resetBlock).rsel = 0 := rfl
@[simp] theorem State.resetBlock_fMatch : (s.resetBlock).fMatch = false := rfl
@[simp] theorem State.resetBlock_fRej : (s.resetBlock).fRej = false := rfl
@[simp] theorem State.resetBlock_fTrunc : (s.resetBlock).fTrunc = false := rfl
@[simp] theorem State.resetBlock_lastErr : (s.resetBlock).lastErr = none := rfl
@[simp] theorem State.resetBlock_errM : (s.resetBlock).errM = 0 := rfl
@[simp] theorem State.resetBlock_freeIdx : (s.resetBlock).freeIdx = s.freeIdx := rfl

@[simp] theorem State.dropStimulus_cfg : (s.dropStimulus).cfg = s.cfg := rfl
@[simp] theorem State.dropStimulus_rows : (s.dropStimulus).rows = s.rows := rfl
@[simp] theorem State.dropStimulus_stimuli : (s.dropStimulus).stimuli = s.stimuli.tail := rfl
@[simp] theorem State.dropStimulus_emitted : (s.dropStimulus).emitted = s.emitted := rfl
@[simp] theorem State.dropStimulus_fsm : (s.dropStimulus).fsm = s.fsm := rfl
@[simp] theorem State.dropStimulus_pos : (s.dropStimulus).pos = s.pos := rfl
@[simp] theorem State.dropStimulus_m : (s.dropStimulus).m = s.m := rfl
@[simp] theorem State.dropStimulus_fb : (s.dropStimulus).fb = s.fb := rfl
@[simp] theorem State.dropStimulus_acc : (s.dropStimulus).acc = s.acc := rfl
@[simp] theorem State.dropStimulus_count : (s.dropStimulus).count = s.count := rfl
@[simp] theorem State.dropStimulus_rsel : (s.dropStimulus).rsel = s.rsel := rfl
@[simp] theorem State.dropStimulus_fMatch : (s.dropStimulus).fMatch = s.fMatch := rfl
@[simp] theorem State.dropStimulus_fRej : (s.dropStimulus).fRej = s.fRej := rfl
@[simp] theorem State.dropStimulus_fTrunc : (s.dropStimulus).fTrunc = s.fTrunc := rfl
@[simp] theorem State.dropStimulus_lastErr : (s.dropStimulus).lastErr = s.lastErr := rfl
@[simp] theorem State.dropStimulus_errM : (s.dropStimulus).errM = s.errM := rfl
@[simp] theorem State.dropStimulus_freeIdx : (s.dropStimulus).freeIdx = s.freeIdx := rfl

@[simp] theorem State.placeRow_cfg (r : Nat) (bits : List Bool) : (s.placeRow r bits).cfg = s.cfg := rfl
@[simp] theorem State.placeRow_rows (r : Nat) (bits : List Bool) : (s.placeRow r bits).rows = s.rows.setRow r (Row.ofBits bits) := rfl
@[simp] theorem State.placeRow_stimuli (r : Nat) (bits : List Bool) : (s.placeRow r bits).stimuli = s.stimuli := rfl
@[simp] theorem State.placeRow_emitted (r : Nat) (bits : List Bool) : (s.placeRow r bits).emitted = s.emitted := rfl
@[simp] theorem State.placeRow_fsm (r : Nat) (bits : List Bool) : (s.placeRow r bits).fsm = s.fsm := rfl
@[simp] theorem State.placeRow_pos (r : Nat) (bits : List Bool) : (s.placeRow r bits).pos = s.pos := rfl
@[simp] theorem State.placeRow_m (r : Nat) (bits : List Bool) : (s.placeRow r bits).m = s.m := rfl
@[simp] theorem State.placeRow_fb (r : Nat) (bits : List Bool) : (s.placeRow r bits).fb = s.fb := rfl
@[simp] theorem State.placeRow_acc (r : Nat) (bits : List Bool) : (s.placeRow r bits).acc = s.acc := rfl
@[simp] theorem State.placeRow_count (r : Nat) (bits : List Bool) : (s.placeRow r bits).count = s.count := rfl
@[simp] theorem State.placeRow_rsel (r : Nat) (bits : List Bool) : (s.placeRow r bits).rsel = s.rsel := rfl
@[simp] theorem State.placeRow_fMatch (r : Nat) (bits : List Bool) : (s.placeRow r bits).fMatch = s.fMatch := rfl
@[simp] theorem State.placeRow_fRej (r : Nat) (bits : List Bool) : (s.placeRow r bits).fRej = s.fRej := rfl
@[simp] theorem State.placeRow_fTrunc (r : Nat) (bits : List Bool) : (s.placeRow r bits).fTrunc = s.fTrunc := rfl
@[simp] theorem State.placeRow_lastErr (r : Nat) (bits : List Bool) : (s.placeRow r bits).lastErr = s.lastErr := rfl
@[simp] theorem State.placeRow_errM (r : Nat) (bits : List Bool) : (s.placeRow r bits).errM = s.errM := rfl
@[simp] theorem State.placeRow_freeIdx (r : Nat) (bits : List Bool) : (s.placeRow r bits).freeIdx = s.freeIdx := rfl
@[simp] theorem State.enter_row (f : Fsm) : (s.enter f).row = s.row := rfl
@[simp] theorem State.enter_rowLen (f : Fsm) : (s.enter f).rowLen = s.rowLen := rfl
@[simp] theorem State.found_row (i : Nat) : (s.found i).row = s.row := rfl
@[simp] theorem State.found_rowLen (i : Nat) : (s.found i).rowLen = s.rowLen := rfl
@[simp] theorem State.truncate_row : (s.truncate).row = s.row := rfl
@[simp] theorem State.truncate_rowLen : (s.truncate).rowLen = s.rowLen := rfl
@[simp] theorem State.loadFrame_row (b : RawFrame) : (s.loadFrame b).row = s.row := rfl
@[simp] theorem State.loadFrame_rowLen (b : RawFrame) : (s.loadFrame b).rowLen = s.rowLen := rfl
@[simp] theorem State.setAcc_row (v : Byte) : (s.setAcc v).row = s.row := rfl
@[simp] theorem State.setAcc_rowLen (v : Byte) : (s.setAcc v).rowLen = s.rowLen := rfl
@[simp] theorem State.raise_row (k : ErrKind) : (s.raise k).row = s.row := rfl
@[simp] theorem State.raise_rowLen (k : ErrKind) : (s.raise k).rowLen = s.rowLen := rfl
@[simp] theorem State.emitRecord_row : (s.emitRecord).row = s.row := rfl
@[simp] theorem State.emitRecord_rowLen : (s.emitRecord).rowLen = s.rowLen := rfl
@[simp] theorem State.advancePos_row : (s.advancePos).row = s.row := rfl
@[simp] theorem State.advancePos_rowLen : (s.advancePos).rowLen = s.rowLen := rfl
@[simp] theorem State.dropStimulus_row : (s.dropStimulus).row = s.row := rfl
@[simp] theorem State.dropStimulus_rowLen : (s.dropStimulus).rowLen = s.rowLen := rfl
@[simp] theorem State.enter_pins (f : Fsm) : (s.enter f).pins = s.pins := rfl
@[simp] theorem State.found_pins (i : Nat) : (s.found i).pins = s.pins := rfl
@[simp] theorem State.truncate_pins : (s.truncate).pins = s.pins := rfl
@[simp] theorem State.loadFrame_pins (b : RawFrame) : (s.loadFrame b).pins = s.pins := rfl
@[simp] theorem State.setAcc_pins (v : Byte) : (s.setAcc v).pins = s.pins := rfl
@[simp] theorem State.raise_pins (k : ErrKind) : (s.raise k).pins = s.pins := rfl
@[simp] theorem State.emitRecord_pins : (s.emitRecord).pins = s.pins := rfl
@[simp] theorem State.advancePos_pins : (s.advancePos).pins = s.pins := rfl
@[simp] theorem State.beginInvocation_pins : (s.beginInvocation).pins = s.pins := rfl
@[simp] theorem State.resetBlock_pins : (s.resetBlock).pins = s.pins := rfl
@[simp] theorem State.placeRow_pins (r : Nat) (bits : List Bool) : (s.placeRow r bits).pins = s.pins := rfl

end Sys2Proof.Machine
end

