-- ==== Sys2Proof/Laws/Ops.lean ====
section
/-! SUPPORT. What each shared operation can do, said once. -/

namespace Sys2Proof.Machine

theorem State.locateNext_cases (s : State) :
    (∃ i, locate s.cfg s.row s.pos = some i ∧ s.locateNext = s.found i)
      ∨ (locate s.cfg s.row s.pos = none ∧ s.locateNext = s.enter .done) := by
  rw [State.locateNext]
  cases h : locate s.cfg s.row s.pos with
  | none => exact .inr ⟨rfl, rfl⟩
  | some i => exact .inl ⟨i, rfl, rfl⟩

theorem State.checkSpan_cases (s : State) :
    (spanOk s.cfg s.row s.m = true ∧ s.checkSpan = s.enter .extract)
      ∨ (spanOk s.cfg s.row s.m = false ∧ s.checkSpan = s.truncate) := by
  rw [State.checkSpan]
  cases h : spanOk s.cfg s.row s.m
  · exact .inr ⟨rfl, rfl⟩
  · exact .inl ⟨rfl, rfl⟩

theorem State.extractNext_cases (s : State) :
    (∃ b, extractFrame s.row (frameStart s.cfg s.m) = some b ∧ s.extractNext = s.loadFrame b)
      ∨ (extractFrame s.row (frameStart s.cfg s.m) = none ∧ s.extractNext = s.raise .insufficientBits) := by
  rw [State.extractNext]
  cases h : extractFrame s.row (frameStart s.cfg s.m) with
  | none => exact .inr ⟨rfl, rfl⟩
  | some b => exact .inl ⟨b, rfl, rfl⟩

theorem State.checkSum_cases (s : State) :
    (accepted s.fb = true ∧ s.checkSum = (s.setAcc (sum8 s.fb)).enter .mapemit)
      ∨ (accepted s.fb = false ∧ s.checkSum = (s.setAcc (sum8 s.fb)).raise .checksumMismatch) := by
  rw [State.checkSum]
  cases h : accepted s.fb
  · exact .inr ⟨rfl, rfl⟩
  · exact .inl ⟨rfl, rfl⟩

theorem State.decodeCandidate_cases (s : State) (b : RawFrame) :
    (accepted b = true
        ∧ s.decodeCandidate b = (((s.loadFrame b).setAcc (sum8 b)).enter .mapemit).emitRecord)
      ∨ (accepted b = false
        ∧ s.decodeCandidate b = ((s.loadFrame b).setAcc (sum8 b)).raise .checksumMismatch) := by
  rw [State.decodeCandidate, State.checkSum]
  cases h : accepted b
  · exact .inr ⟨rfl, by simp [h]⟩
  · exact .inl ⟨rfl, by simp [h]⟩

/-- Placing a row leaves the running invocation's row as it is, where it is not refused. -/
theorem State.placeRow_row {s : State} {r : Nat} {bits : List Bool} (hb : s.busy = true)
    (h : s.disturbs r bits = false) : (s.placeRow r bits).row = s.row := by
  simp only [State.row, State.rowNamed, State.placeRow_rows, State.placeRow_rsel, lookupRow_setRow]
  by_cases hr : s.rsel = r
  · simp only [State.disturbs, hb, hr, beq_self_eq_true, Bool.and_self, Bool.true_and,
      decide_eq_false_iff_not, ne_eq, not_not] at h
    rw [hr, h]
    simp
  · simp [hr]

end Sys2Proof.Machine
end

