-- ==== Sys2Proof/Laws/PerInstr.lean ====
section
/-! SUPPORT. The family EncodedForm: what every instruction's bytes look like, one lemma per constructor. -/

namespace Sys2Proof.Laws.EncodedForm

/-- A selector is one byte below 10 hex, a region eleven bytes that begin with the preamble. -/
def Statement (i : Instr) : Prop :=
  ((encode i).length = 1 ∧ ∀ b ∈ encode i, b.toNat < 16) ∨ ((encode i).length = 11 ∧ (encode i).take 3 = preambleBytes)

theorem waitIdle : Statement .waitIdle := .inl (by decide)
theorem waitDone : Statement .waitDone := .inl (by decide)
theorem startIdle : Statement .startIdle := .inl (by decide)
theorem startDone : Statement .startDone := .inl (by decide)
theorem locate (start : Bool) : Statement (.locate start) := .inl (by cases start <;> decide)
theorem spanchk (start : Bool) : Statement (.spanchk start) := .inl (by cases start <;> decide)
theorem extract (start : Bool) : Statement (.extract start) := .inl (by cases start <;> decide)
theorem sum8chk (start : Bool) : Statement (.sum8chk start) := .inl (by cases start <;> decide)
theorem mapemit (start : Bool) : Statement (.mapemit start) := .inl (by cases start <;> decide)
theorem advance (start : Bool) : Statement (.advance start) := .inl (by cases start <;> decide)
theorem tpmsFrame (ident : BitVec 24) (pressure : BitVec 16) (tempRaw status checksum : Byte) :
    Statement (.tpmsFrame ident pressure tempRaw status checksum) := .inr ⟨rfl, rfl⟩

end Sys2Proof.Laws.EncodedForm
end

