-- ==== Sys2Proof/Laws/Step.lean ====
section
/-! SUPPORT. What a step can do, said once: the row provider's step, a reset, or one operation. -/

namespace Sys2Proof.Machine

/-- If the row provider's step answers a next state, it did not disturb an invocation. -/
theorem placeStep_next {r : Nat} {bits : List Bool} {s t : State} (h : placeStep r bits s = .next t) :
    s.disturbs r bits = false ∧ t = (s.placeRow r bits).dropStimulus := by
  rw [placeStep] at h
  cases hd : s.disturbs r bits
  · rw [hd] at h
    exact ⟨rfl, by simpa using h.symm⟩
  · rw [hd] at h
    simp at h

theorem afterExec_next {o : Host.Outcome State Fault Refusal} {t : State} (h : afterExec o = .next t) :
    ∃ u, o = .next u ∧ t = u.dropStimulus := by
  cases o with
  | next u => exact ⟨u, rfl, by simpa [afterExec] using h.symm⟩
  | fault r => simp [afterExec] at h
  | refused r => simp [afterExec] at h

/-- A step is the row provider's, a reset, or the execution of the instruction fetched. -/
theorem step_next {s t : State} (h : step s = .next t) :
    (∃ r bits rest, s.stimuli = .place r bits :: rest ∧ s.disturbs r bits = false
        ∧ t = (s.placeRow r bits).dropStimulus)
      ∨ (s.pins.rst = true ∧ t = s.resetBlock.dropStimulus)
      ∨ (s.operates = true ∧ ∃ i rest u, decode s.fetch = .ok (i, rest) ∧ exec i s = .next u
          ∧ t = u.dropStimulus) := by
  have block : (∀ r bits rest, s.stimuli ≠ .place r bits :: rest) → blockStep s = .next t →
      (s.pins.rst = true ∧ t = s.resetBlock.dropStimulus)
        ∨ (s.operates = true ∧ ∃ i rest u, decode s.fetch = .ok (i, rest) ∧ exec i s = .next u
            ∧ t = u.dropStimulus) := by
    intro hn hb
    rw [blockStep] at hb
    cases hr : s.pins.rst
    · refine .inr ⟨?_, ?_⟩
      · rw [State.operates]
        rw [State.pins] at hr
        split <;> simp_all
      · rw [hr, if_neg (by simp), runFetched] at hb
        cases hd : decode s.fetch with
        | error e => simp [hd] at hb
        | ok p =>
          obtain ⟨i, rest⟩ := p
          rw [hd] at hb
          obtain ⟨u, hu, ht⟩ := afterExec_next hb
          exact ⟨i, rest, u, rfl, hu, ht⟩
    · rw [hr, if_pos rfl] at hb
      exact .inl ⟨rfl, by simpa using hb.symm⟩
  rw [step.eq_def] at h
  split at h
  · next r bits rest heq =>
    obtain ⟨h1, h2⟩ := placeStep_next h
    exact .inl ⟨r, bits, rest, heq, h1, h2⟩
  · next p rest heq => exact .inr (block (by simp [heq]) h)
  · next heq => exact .inr (block (by simp [heq]) h)

/-- The operation of level S in each control state (R77). -/
theorem fetch_selector {s : State} (h : s.atFrame = false) :
    decode s.fetch = .ok (match s.fsm with
      | .idle => if s.pins.start then .startIdle else .waitIdle
      | .locate => .locate s.pins.start
      | .spanchk => .spanchk s.pins.start
      | .extract => .extract s.pins.start
      | .sum8chk => .sum8chk s.pins.start
      | .mapemit => .mapemit s.pins.start
      | .advance => .advance s.pins.start
      | .done => if s.pins.start then .startDone else .waitDone, []) := by
  rw [State.fetch, if_neg (by simp [h]), State.sel, decode_selectorByte]
  cases s.pins.start <;> cases s.fsm <;> rfl

theorem atFrame_iff {s : State} :
    s.atFrame = true ↔ s.pins.level = .F ∧ s.fsm = .extract ∧ s.cfg.patternLen = 24 ∧ s.m + 88 ≤ s.rowLen
      ∧ (regionBytes s.row s.m).take 3 = preambleBytes := by
  simp only [State.atFrame, Bool.and_eq_true, beq_iff_eq, decide_eq_true_eq, and_assoc]

/-- At level F what is fetched is the frame of the candidate (R70). -/
theorem fetch_frame {s : State} (h : s.atFrame = true) :
    let b := frameBytesAt s.row (s.m + 24)
    decode s.fetch = .ok (.tpmsFrame (b.b0 ++ b.b1 ++ b.b2) (b.b3 ++ b.b4) b.b5 b.b6 b.b7, []) := by
  obtain ⟨-, -, -, -, hp⟩ := atFrame_iff.1 h
  rw [State.fetch, if_pos h]
  refine decode_region ?_
  rw [← List.take_append_drop 3 (regionBytes s.row s.m), hp]
  rfl

/-- What the block does in one step without reset: the operation of its control state, or at level F the decoding of the
candidate in one step. -/
theorem step_operates {s t : State} (ho : s.operates = true) (h : step s = .next t) :
    (s.atFrame = true ∧ t = (s.decodeCandidate (frameBytesAt s.row (s.m + 24))).dropStimulus)
      ∨ (s.atFrame = false ∧ t = (match s.fsm with
          | .idle => if s.pins.start then s.beginInvocation else s
          | .locate => s.locateNext
          | .spanchk => s.checkSpan
          | .extract => s.extractNext
          | .sum8chk => s.checkSum
          | .mapemit => s.emitRecord
          | .advance => s.advancePos
          | .done => if s.pins.start then s.beginInvocation else s).dropStimulus) := by
  have hrun : ∃ i rest u, decode s.fetch = .ok (i, rest) ∧ exec i s = .next u ∧ t = u.dropStimulus := by
    rcases step_next h with ⟨r, bits, rest, hs, -, -⟩ | ⟨hr, -⟩ | ⟨-, hrun⟩
    · simp [State.operates, hs] at ho
    · simp only [State.operates] at ho
      simp only [State.pins] at hr
      split at ho <;> simp_all [Pins.quiet]
    · exact hrun
  obtain ⟨i, rest, u, hd, hu, rfl⟩ := hrun
  cases hf : s.atFrame
  · rw [fetch_selector hf] at hd
    injection hd with hd
    injection hd with hi hrest
    subst hi
    refine .inr ⟨rfl, ?_⟩
    cases hfsm : s.fsm <;> rw [hfsm] at hu
    all_goals first
      | (cases hst : s.pins.start <;> rw [hst] at hu <;> injection hu with hu <;> rw [← hu] <;> rfl)
  · rw [fetch_frame hf] at hd
    injection hd with hd
    injection hd with hi hrest
    subst hi
    injection hu with hu
    refine .inl ⟨rfl, ?_⟩
    rw [← hu, ofFields_of_bytes]

/-- The same with the two outcomes of each operation apart. -/
theorem operate_cases {s t : State} (ho : s.operates = true) (h : step s = .next t) :
    ∃ u, t = u.dropStimulus ∧
    ((s.atFrame = true ∧ u = s.decodeCandidate (frameBytesAt s.row (s.m + 24))) ∨
     (s.atFrame = false ∧
      (((s.fsm = .idle ∨ s.fsm = .done) ∧ s.pins.start = true ∧ u = s.beginInvocation)
      ∨ ((s.fsm = .idle ∨ s.fsm = .done) ∧ s.pins.start = false ∧ u = s)
      ∨ (∃ i, s.fsm = .locate ∧ locate s.cfg s.row s.pos = some i ∧ u = s.found i)
      ∨ (s.fsm = .locate ∧ locate s.cfg s.row s.pos = none ∧ u = s.enter .done)
      ∨ (s.fsm = .spanchk ∧ spanOk s.cfg s.row s.m = true ∧ u = s.enter .extract)
      ∨ (s.fsm = .spanchk ∧ spanOk s.cfg s.row s.m = false ∧ u = s.truncate)
      ∨ (∃ b, s.fsm = .extract ∧ extractFrame s.row (frameStart s.cfg s.m) = some b ∧ u = s.loadFrame b)
      ∨ (s.fsm = .extract ∧ extractFrame s.row (frameStart s.cfg s.m) = none ∧ u = s.raise .insufficientBits)
      ∨ (s.fsm = .sum8chk ∧ accepted s.fb = true ∧ u = (s.setAcc (sum8 s.fb)).enter .mapemit)
      ∨ (s.fsm = .sum8chk ∧ accepted s.fb = false ∧ u = (s.setAcc (sum8 s.fb)).raise .checksumMismatch)
      ∨ (s.fsm = .mapemit ∧ u = s.emitRecord)
      ∨ (s.fsm = .advance ∧ u = s.advancePos)))) := by
  rcases step_operates ho h with ⟨ha, rfl⟩ | ⟨ha, rfl⟩
  · exact ⟨_, rfl, .inl ⟨ha, rfl⟩⟩
  · refine ⟨_, rfl, .inr ⟨ha, ?_⟩⟩
    cases hf : s.fsm
    · cases hs : s.pins.start <;> simp
    · rcases s.locateNext_cases with ⟨i, h1, h2⟩ | ⟨h1, h2⟩ <;> simp [h1, h2]
    · rcases s.checkSpan_cases with ⟨h1, h2⟩ | ⟨h1, h2⟩ <;> simp [h1, h2]
    · rcases s.extractNext_cases with ⟨b, h1, h2⟩ | ⟨h1, h2⟩ <;> simp [h1, h2]
    · rcases s.checkSum_cases with ⟨h1, h2⟩ | ⟨h1, h2⟩ <;> simp [h1, h2]
    · simp
    · simp
    · cases hs : s.pins.start <;> simp

end Sys2Proof.Machine
end

