-- ==== Sys2Proof/Machine/Trace.lean ====
section
/-! DEFINITION. The trace notation of R83 as data: one line per operation, with the registers it reads and writes. -/

namespace Sys2Proof.Machine

/-- A trace line (R83). -/
inductive TraceLine where
  | start
  | locate (pos : Nat) (found : Option Nat)
  | spanchk (m : Nat) (ok : Bool)
  | extract (m : Nat) (fb : Option RawFrame)
  | sum8chk (sum : Byte) (b7 : Byte) (ok : Bool)
  | mapemit (rec : DecodedRecord) (count : Nat)
  | advance (pos : Nat)
  deriving DecidableEq, Repr

/-- The line of an operation performed in state `s`; WAIT and the frame format have none. -/
def traceLine (i : Instr) (s : State) : Option TraceLine :=
  match i with
  | .waitIdle => none
  | .waitDone => none
  | .startIdle => some .start
  | .startDone => some .start
  | .locate _ => some (.locate s.pos (locate s.cfg s.row s.pos))
  | .spanchk _ => some (.spanchk s.m (spanOk s.cfg s.row s.m))
  | .extract _ => some (.extract s.m (extractFrame s.row (frameStart s.cfg s.m)))
  | .sum8chk _ => some (.sum8chk (sum8 s.fb) s.fb.b7 (accepted s.fb))
  | .mapemit _ => some (.mapemit (mapFields s.cfg s.fb) (s.count + 1))
  | .advance _ => some (.advance (s.m + s.cfg.scanStep))
  | .tpmsFrame _ _ _ _ _ => none

/-- The last line of a trace (R83). -/
structure DoneLine where
  count : Nat
  fMatch : Bool
  fRej : Bool
  fTrunc : Bool
  lastErr : BitVec 2
  deriving DecidableEq, Repr

/-- That line, once the run has ended (R105). -/
def State.doneLine (s : State) : Option DoneLine :=
  if s.isDone then some ⟨s.count, s.fMatch, s.fRej, s.fTrunc, errCode s.lastErr⟩ else none

end Sys2Proof.Machine
end

