-- ==== Sys2Proof/Tests/Slice0.lean ====
section
/-! SUPPORT. Tests: the words and vectors of spec/ (95_test_vectors.md, 30_encoding.md), one step each, and a witness
for every statement that has hypotheses. Expected values are the spec's own or hand calculation from its rules. -/

namespace Sys2Proof.Tests

open Machine

-- One theorem at a time: each waits for the kernel, and a file of waiting theorems runs out of threads.
set_option Elab.async false

/-! ### A small state -/

/-- The defaults of R6 with the OPEN widths at 32. -/
def cfg32 : Cfg := { Cfg.default with modelName := "test", wIdx := 32, wCnt := 32, wRow := 8 }

/-- A block in control state `f`, its row 0 the bits of `bytes`, no input driven. -/
def block (f : Fsm) (len : Nat) (bytes : List Byte) : State :=
  { State.reset with cfg := cfg32, rows := [(0, Row.ofBytes len bytes)], fsm := f }

/-- The row of program P1, vector V-E1. -/
def rowP1 : List Byte :=
  [0x7F#8, 0xFF#8, 0x00#8, 0x00#8, 0x11#8, 0x22#8, 0x33#8, 0x44#8, 0x64#8, 0x00#8, 0x0E#8, 0x00#8, 0x00#8, 0x00#8]

/-- The row of program P2, vector V-E2: the frame at bit 29. -/
def rowP2 : List Byte :=
  [0xAB#8, 0xFF#8, 0xF8#8, 0x05#8, 0x5E#8, 0x6F#8, 0x78#8, 0x09#8, 0x62#8, 0x5D#8, 0x2C#8, 0x27#8, 0xFF#8, 0xFF#8,
   0xF8#8]

/-- The frame of V-C1, V-F1. -/
def frameP1 : RawFrame := ⟨0x00, 0x11, 0x22, 0x33, 0x44, 0x64, 0x00, 0x0E⟩

/-- The frame of V-C7, V-F4. -/
def frameP2 : RawFrame := ⟨0xAB, 0xCD, 0xEF, 0x01, 0x2C, 0x4B, 0xA5, 0x84⟩

/-- Inputs with a `start` pulse for row `r`. -/
def pulse (r : Nat) : Pins := ⟨false, true, r, .S⟩

/-- A property of the next state; false where there is none. -/
def holdsNext (o : Host.Outcome State Fault Refusal) (q : State → Bool) : Bool :=
  match o with
  | .next t => q t
  | .fault _ => false
  | .refused _ => false

/-! ### Encodings: words written out from R70 and R77 -/

theorem test_decode_wait_idle : decode [0b00000000#8] = .ok (.waitIdle, []) := by decide
theorem test_decode_wait_done : decode [0b00000111#8] = .ok (.waitDone, []) := by decide
theorem test_decode_start_idle : decode [0b00001000#8] = .ok (.startIdle, []) := by decide
theorem test_decode_start_done : decode [0b00001111#8] = .ok (.startDone, []) := by decide
theorem test_decode_locate : decode [0b00001001#8] = .ok (.locate true, []) := by decide
theorem test_decode_spanchk : decode [0b00000010#8] = .ok (.spanchk false, []) := by decide
theorem test_decode_extract : decode [0b00000011#8] = .ok (.extract false, []) := by decide
theorem test_decode_sum8chk : decode [0b00001100#8] = .ok (.sum8chk true, []) := by decide
theorem test_decode_mapemit : decode [0b00000101#8] = .ok (.mapemit false, []) := by decide
theorem test_decode_advance : decode [0b00000110#8] = .ok (.advance false, []) := by decide

/-- The region of V-F4, bit by bit: preamble, id ABCDEF, pressure 012C, temperature 4B, status A5, checksum 84. -/
theorem test_decode_frame :
    decode [0b01111111#8, 0b11111111#8, 0b00000000#8, 0b10101011#8, 0b11001101#8, 0b11101111#8, 0b00000001#8,
      0b00101100#8, 0b01001011#8, 0b10100101#8, 0b10000100#8]
      = .ok (.tpmsFrame 0xABCDEF#24 0x012C#16 0x4B#8 0xA5#8 0x84#8, []) := by decide

theorem test_decode_rejects_no_bytes : decode [] = .error .noBytes := by decide
theorem test_decode_rejects_reserved_byte : decode [0x10#8] = .error (.notASelector 0x10#8) := by decide
theorem test_decode_rejects_wrong_preamble :
    decode [0x7F#8, 0xFF#8, 0x01#8, 0#8, 0#8, 0#8, 0#8, 0#8, 0#8, 0#8, 0#8] = .error .wrongPreamble := by decide
theorem test_decode_rejects_short_region : decode [0x7F#8, 0xFF#8, 0x00#8] = .error .truncatedRegion := by decide

/-- No two rows of the selector table select one selector (R77). -/
theorem test_selector_rows_disjoint :
    selectorTable.Pairwise fun a b => a.pattern &&& b.mask &&& a.mask ≠ b.pattern &&& a.mask &&& b.mask := by decide

/-- The check of WellFormed refuses the frame of C4, whose printed checksum is wrong, and accepts the corrected one. -/
theorem test_wellFormed_refuses_wrong_checksum :
    (Instr.tpmsFrame 0x001122#24 0x3344#16 0x64#8 0x00#8 0xBE#8).wellFormed = false := by decide
theorem test_wellFormed_accepts_corrected_checksum :
    (Instr.tpmsFrame 0x001122#24 0x3344#16 0x64#8 0x00#8 0x0E#8).wellFormed = true := by decide

/-! ### Rows and searches -/

/-- R82's example: `ROW 12 : 7F F0` is 0111 1111 1111. -/
theorem test_row_notation :
    (List.range 12).map (rowBit (Row.ofBytes 12 [0x7F#8, 0xF0#8]))
      = [false, true, true, true, true, true, true, true, true, true, true, true] := by decide

/-- V-L3: a match that is not byte aligned. -/
theorem test_locate_unaligned :
    locate cfg32 (Row.ofBytes 32 [0x0F#8, 0xFF#8, 0xE0#8, 0x00#8]) 0 = some 3
      ∧ locate cfg32 (Row.ofBytes 32 [0x0F#8, 0xFF#8, 0xE0#8, 0x00#8]) 4 = none := by decide +kernel

/-- V-L4: two occurrences that share a bit. -/
theorem test_locate_overlap :
    locate cfg32 (Row.ofBytes 47 [0x7F#8, 0xFF#8, 0x00#8, 0xFF#8, 0xFE#8, 0x00#8]) 1 = some 23 := by decide +kernel

/-- V-L7 and V-L8: a pattern cut by the end of the row is no occurrence; the empty row. -/
theorem test_locate_cut :
    locate cfg32 (Row.ofBytes 23 [0x7F#8, 0xFF#8, 0x00#8]) 0 = none ∧ locate cfg32 (Row.ofBytes 0 []) 5 = none := by
  decide +kernel

/-- P1, P2 at level F: the records' count. -/
theorem test_scan_counts :
    scanCount cfg32 (Row.ofBytes 112 rowP1) = 1 ∧ scanCount cfg32 (Row.ofBytes 117 rowP2) = 1
      ∧ scanCount cfg32 (Row.ofBytes 88 rowP1) = 0 := by decide +kernel

/-! ### One step of each operation -/

/-- V-L2 as an operation: `m <- 8`. -/
theorem test_locate_finds :
    holdsNext (exec (.locate false) (block .locate 32 [0x00#8, 0x7F#8, 0xFF#8, 0x00#8]))
      (fun t => t.m == 8 && t.fMatch && t.fsm == .spanchk) = true := by decide +kernel

/-- V-L6 as an operation: DONE, `F_MATCH` unchanged. -/
theorem test_locate_finds_nothing :
    holdsNext (exec (.locate false) (block .locate 32 [0xAA#8, 0xAA#8, 0xAA#8, 0xAA#8]))
      (fun t => !t.fMatch && t.fsm == .done) = true := by decide +kernel

/-- V-S4: `5 + 112 = 117`. -/
theorem test_spanchk_ok :
    holdsNext (exec (.spanchk false) { block .spanchk 117 rowP2 with m := 5 })
      (fun t => t.fsm == .extract && !t.fTrunc) = true := by decide +kernel

/-- V-S5: one bit fewer. -/
theorem test_spanchk_short :
    holdsNext (exec (.spanchk false) { block .spanchk 116 rowP2 with m := 5 })
      (fun t => t.fsm == .done && t.fTrunc && t.lastErr == none) = true := by decide +kernel

/-- V-E2: the frame at bit 29. -/
theorem test_extract_unaligned :
    holdsNext (exec (.extract false) { block .extract 117 rowP2 with m := 5 })
      (fun t => t.fb == frameP2 && t.fsm == .sum8chk) = true := by decide +kernel

/-- V-E5: TAIL_ALIGN 0 and MIN_SPAN 24 let a candidate without its frame through. -/
theorem test_extract_insufficient :
    holdsNext (exec (.extract false)
        { block .extract 64 rowP1 with cfg := { cfg32 with tailAlign := 0, minSpan := 24 }, fb := frameP2 })
      (fun t => t.lastErr == some .insufficientBits && t.errM == 0 && t.fRej && t.fsm == .advance
        && t.fb == frameP2) = true := by decide +kernel

/-- V-C4: the largest sum wraps to F9. -/
theorem test_sum8chk_wraps :
    holdsNext (exec (.sum8chk false)
        { block .sum8chk 0 [] with fb := ⟨0xFF, 0xFF, 0xFF, 0xFF, 0xFF, 0xFF, 0xFF, 0xF9⟩ })
      (fun t => t.acc == 0xF9#8 && t.fsm == .mapemit) = true := by decide +kernel

/-- V-C2: the source's printed checksum is rejected; `acc` holds the sum. -/
theorem test_sum8chk_mismatch :
    holdsNext (exec (.sum8chk false) { block .sum8chk 0 [] with m := 7, fb := { frameP1 with b7 := 0xBE } })
      (fun t => t.acc == 0x0E#8 && t.lastErr == some .checksumMismatch && t.errM == 7 && t.fRej
        && t.fsm == .advance && t.count == 0) = true := by decide +kernel

/-- V-F4. -/
theorem test_mapemit_record :
    holdsNext (exec (.mapemit false) { block .mapemit 0 [] with fb := frameP2, count := 1 })
      (fun t => t.count == 2 && t.fsm == .advance && match t.emitted with
        | [r] => r.ident == 0xABCDEF#24 && r.status == 0xA5#8 && r.pressure == 300#16 && r.temperature == 25
            && r.raw == 0xABCDEF012C4BA584#64
        | _ => false) = true := by decide +kernel

/-- 95_test_vectors.md 2.7: from `m = 112`, 114, not from the old `pos`. -/
theorem test_advance_from_match :
    holdsNext (exec (.advance false) { block .advance 0 [] with m := 112, pos := 2 })
      (fun t => t.pos == 114 && t.fsm == .locate) = true := by decide +kernel

/-- 95_test_vectors.md 2.8: START from DONE with the results of P3: `STATUS` 277 before, 009 after. -/
theorem test_start_clears :
    let s := { block .done 0 [] with
      count := 1, fMatch := true, fRej := true, lastErr := some .checksumMismatch, stimuli := [.pins (pulse 3)] }
    s.status = 0x277#10
      ∧ holdsNext (step s) (fun t => t.status == 0x009#10 && t.rsel == 3 && t.count == 0 && t.pos == 0) = true := by
  decide +kernel

/-- IDLE with `start = 1`, from reset. -/
theorem test_start_from_reset :
    holdsNext (step { State.reset with stimuli := [.pins (pulse 0)] })
      (fun t => t.fsm == .locate && t.status == 0x009#10) = true := by decide +kernel

/-- From reset with nothing driven: WAIT in IDLE. -/
theorem test_wait_from_reset : step State.reset = .next State.reset := rfl

/-- WAIT in DONE keeps the result. -/
theorem test_wait_in_done :
    holdsNext (step { block .done 0 [] with count := 4 }) (fun t => t.count == 4 && t.fsm == .done) = true := by
  decide +kernel

/-- 2.8: LOCATE with a pulse is LOCATE. -/
theorem test_pulse_while_busy :
    holdsNext (step { block .locate 32 [0x00#8, 0x7F#8, 0xFF#8, 0x00#8] with stimuli := [.pins (pulse 9)] })
      (fun t => t.m == 8 && t.rsel == 0 && t.fsm == .spanchk) = true := by decide +kernel

/-- The one-step decoding of P1's frame. -/
theorem test_frame_accepted :
    holdsNext (exec (.tpmsFrame 0x001122#24 0x3344#16 0x64#8 0x00#8 0x0E#8) (block .extract 112 rowP1))
      (fun t => t.count == 1 && t.fb == frameP1 && t.fsm == .advance && t.emitted.length == 1) = true := by
  decide +kernel

/-- The same with the checksum of C4. -/
theorem test_frame_rejected :
    holdsNext (exec (.tpmsFrame 0x001122#24 0x3344#16 0x64#8 0x00#8 0xBE#8) (block .extract 112 rowP1))
      (fun t => t.count == 0 && t.lastErr == some .checksumMismatch && t.fsm == .advance && t.emitted == [])
      = true := by decide +kernel

/-- Reset in the middle of an invocation (R209). -/
theorem test_reset_abandons :
    holdsNext (step { block .mapemit 0 [] with count := 3, fMatch := true, stimuli := [.pins ⟨true, true, 0, .S⟩] })
      (fun t => t.fsm == .idle && t.count == 0 && t.status == 0#10) = true := by decide +kernel

/-- The row provider changes the running row: refused (U1). -/
theorem test_place_refused :
    step { block .locate 8 [0xAA#8] with stimuli := [.place 0 [true]] }
      = .refused (.rowChangedDuringInvocation 0) := rfl

/-- The row provider places a row between invocations. -/
theorem test_place_in_idle :
    holdsNext (step { block .idle 8 [0xAA#8] with stimuli := [.place 2 [true, false, true]] })
      (fun t => lookupRow t.rows 2 == some ⟨3, [(0, 0xA0#8)]⟩ && t.row.len == 8) = true := by decide +kernel

/-- The trace line of P2's EXTRACT (R83). -/
theorem test_trace_extract :
    traceLine (.extract false) { block .extract 117 rowP2 with m := 5 } = some (.extract 5 (some frameP2)) := by
  decide +kernel

/-! ### Fields and texts: V-F2, V-F3, V-F6 -/

theorem test_temperature_lowest :
    fieldTemperature cfg32 ⟨0, 0, 0, 0, 0, 0, 0, 0⟩ = -50 ∧ recTemp cfg32 ⟨0, 0, 0, 0, 0, 0, 0, 0⟩ = 0x1CE#9 := by
  decide
theorem test_temperature_highest :
    fieldTemperature cfg32 ⟨0, 0, 0, 0, 0, 0xFF, 0, 0⟩ = 205
      ∧ recTemp cfg32 ⟨0, 0, 0, 0, 0, 0xFF, 0, 0⟩ = 0x0CD#9 := by decide
theorem test_render_id : renderId 0x00000A#24 = ['0', '0', '0', '0', '0', 'A'] := by decide
theorem test_render_raw :
    renderRaw 0x00000A00003180BB#64
      = ['0', '0', '0', '0', '0', 'A', '0', '0', '0', '0', '3', '1', '8', '0', 'B', 'B'] := by decide
theorem test_render_status :
    renderStatus 0xA5#8 = ['0', 'b', '1', '0', '1', '0', '0', '1', '0', '1'] := by decide
theorem test_render_pressure : renderPressure 0x3344#16 = ['1', '3', '1', '2', '4'] := by decide +kernel
/-- R150's example, with the eight keys of R74. -/
theorem test_render_record :
    (mapFields cfg32 frameP1).render
      = [("model", "test"), ("type", "TPMS"), ("id", "001122"), ("status", "0b00000000"), ("pressure", "13124"),
        ("temperature", "50"), ("raw", "001122334464000E"), ("mic", "SUM8")] := by decide +kernel
theorem test_render_temperature :
    renderTemperature (-50) = ['-', '5', '0'] ∧ renderTemperature 0 = ['0'] := by decide

/-! ### The table words run as the first instruction after reset -/

theorem test_first_step_advance :
    holdsNext (step (State.reset.withFetchWord 8 0b1110)) (fun t => t.fsm == .locate && t.pos == 2) = true := by
  decide +kernel

/-- P1's region as an 88-bit table word. -/
theorem test_first_step_frame :
    holdsNext (step (State.reset.withFetchWord 88 0x7FFF00001122334464000E))
      (fun t => t.fsm == .advance && t.count == 1 && t.fb == frameP1) = true := by decide +kernel

/-! ### Witnesses: for every statement with hypotheses, values that meet them together -/

theorem exists_next {o : Host.Outcome State Fault Refusal} {q : State → Bool} (h : holdsNext o q = true) :
    ∃ t, o = .next t ∧ q t = true := by
  cases o with
  | next t => exact ⟨t, rfl, h⟩
  | fault r => exact absurd h (by simp [holdsNext])
  | refused r => exact absurd h (by simp [holdsNext])

/-- P1's row as data. -/
def rowOfP1 : Row := Row.ofBytes 112 rowP1

/-- P1's candidate at bit 0, in control state `f`, as the operations leave it. -/
def atP1 (f : Fsm) : State := { block f 112 rowP1 with m := 0, fb := frameP1, acc := 0x0E, fMatch := true }

/-- P1's candidate about to be decoded in one step. -/
def atP1F : State := { atP1 .extract with stimuli := [.pins ⟨false, false, 0, .F⟩] }

/-- The bits of the row of V-L2: the preamble at bit 8. -/
def bytesL2 : List Byte := [0x00#8, 0x7F#8, 0xFF#8, 0x00#8]

/-- P1 after its only candidate: the last LOCATE is to come. -/
def afterP1 : State := { atP1 .locate with pos := 2, count := 1, emitted := [mapFields cfg32 frameP1] }

theorem witness_reset :
    let s := { atP1 .mapemit with stimuli := [.pins ⟨true, false, 0, .S⟩] }
    ∃ p rest, s.stimuli = .pins p :: rest ∧ p.rst = true := ⟨_, _, rfl, rfl⟩

theorem witness_accepted_bytes :
    decode [0x09#8, 0x7F#8] = .ok (.locate true, [0x7F#8])
      ∧ decode (encode (.tpmsFrame 1 2 3 4 5)) = .ok (.tpmsFrame 1 2 3 4 5, []) := by decide

theorem witness_frame_fetched :
    atP1F.atFrame = true
      ∧ decode atP1F.fetch = .ok (.tpmsFrame 0x001122#24 0x3344#16 0x64#8 0x00#8 0x0E#8, []) := by decide +kernel

theorem witness_step_runs :
    (atP1 .sum8chk).operates = true ∧ decode (atP1 .sum8chk).fetch = .ok (.sum8chk false, []) := by decide +kernel

/-- Both outcomes of IDLE and DONE; at level S. -/
theorem witness_table_rest :
    (block .idle 0 []).operates = true ∧ (block .idle 0 []).pins.level = .S ∧ (block .idle 0 []).pins.start = false
      ∧ let s := { block .done 0 [] with stimuli := [.pins (pulse 1)] }
        s.operates = true ∧ s.pins.level = .S ∧ s.pins.start = true := by decide +kernel

theorem witness_table_locate :
    (block .locate 32 bytesL2).operates = true ∧ (block .locate 32 bytesL2).pins.level = .S
      ∧ locate cfg32 (block .locate 32 bytesL2).row 0 = some 8
      ∧ locate cfg32 (block .locate 31 bytesL2).row 0 = none := by decide +kernel

/-- The span check, at its boundary: 117 bits and 116. -/
theorem witness_table_span :
    let s := { block .spanchk 117 rowP2 with m := 5 }
    let s' := { block .spanchk 116 rowP2 with m := 5 }
    s.m + s.cfg.tailAlign + s.cfg.minSpan = s.rowLen ∧ s'.rowLen + 1 = s'.m + s'.cfg.tailAlign + s'.cfg.minSpan := by
  decide +kernel

/-- The extraction, at its boundary: 88 bits and 87. -/
theorem witness_table_extract :
    (block .extract 88 rowP1).m + cfg32.patternLen + 64 = (block .extract 88 rowP1).rowLen
      ∧ (block .extract 87 rowP1).rowLen < (block .extract 87 rowP1).m + cfg32.patternLen + 64 := by decide +kernel

theorem witness_table_sum : sum8 frameP1 = frameP1.b7 ∧ sum8 { frameP1 with b7 := 0xBE } ≠ 0xBE#8 := by decide

theorem witness_done_by_locate :
    ∃ t, step (block .locate 31 bytesL2) = .next t ∧ decide (t.fsm = .done) = true :=
  exists_next (by decide +kernel)
theorem witness_done_by_span :
    ∃ t, step { block .spanchk 116 rowP2 with m := 5 } = .next t ∧ decide (t.fsm = .done) = true :=
  exists_next (by decide +kernel)

/-- The three ways a step leaves DONE as it is or leaves it. -/
theorem witness_done_stays : ∃ t, step { block .done 0 [] with count := 4 } = .next t ∧ decide (t.fsm = .done) = true :=
  exists_next (by decide +kernel)
theorem witness_done_starts :
    ∃ t, step { block .done 0 [] with stimuli := [.pins (pulse 1)] } = .next t ∧ decide (t.fsm = .locate) = true :=
  exists_next (by decide +kernel)
theorem witness_done_reset :
    ∃ t, step { block .done 0 [] with stimuli := [.pins ⟨true, false, 0, .S⟩] } = .next t
      ∧ decide (t.fsm = .idle) = true := exists_next (by decide +kernel)

/-- The one way into MAPEMIT. -/
theorem witness_enters_mapemit :
    ∃ t, step (atP1 .sum8chk) = .next t ∧ decide (t.fsm = .mapemit ∧ (atP1 .sum8chk).fsm ≠ .mapemit) = true :=
  exists_next (by decide +kernel)

theorem witness_pulse_busy :
    let s := { atP1 .extract with stimuli := [.pins (pulse 3)] }
    s.busy = true ∧ ∃ p rest, s.stimuli = .pins p :: rest := ⟨rfl, _, _, rfl⟩

/-- A row placed between invocations; another row, and the same contents, inside one; a change of the running row. -/
theorem witness_placement :
    let idle := { block .idle 8 [0xAA#8] with stimuli := [.place 0 [true]] }
    let other := { atP1 .locate with stimuli := [.place 1 [true]] }
    let same := { atP1 .locate with stimuli := [.place 0 ((bitsOfBytes rowP1).take 112)] }
    let change := { atP1 .locate with stimuli := [.place 0 [true]] }
    idle.busy = false ∧ 1 ≠ other.rsel
      ∧ lookupRow same.rows 0 = some (Row.ofBits ((bitsOfBytes rowP1).take 112))
      ∧ change.busy = true ∧ 0 = change.rsel ∧ lookupRow change.rows 0 ≠ some (Row.ofBits [true]) := by decide +kernel

theorem witness_wait :
    (block .idle 0 []).operates = true ∧ (block .idle 0 []).pins.start = false
      ∧ (block .done 0 []).operates = true ∧ (block .done 0 []).pins.start = false := by decide +kernel

theorem witness_locate_found :
    let s := block .locate 32 bytesL2
    s.pos ≤ 8 ∧ 8 + s.cfg.patternLen ≤ s.rowLen
      ∧ (∀ k, k < s.cfg.patternLen → rowBit s.row (8 + k) = patternBit s.cfg k)
      ∧ ∀ j, s.pos ≤ j → j < 8 → ∃ k, k < s.cfg.patternLen ∧ rowBit s.row (j + k) ≠ patternBit s.cfg k := by
  refine ⟨by decide, by decide +kernel, by decide +kernel, fun j _ hj => ?_⟩
  exact (by decide +kernel : ∀ j, j < 8 → ∃ k, k < 24 ∧
    rowBit (block .locate 32 bytesL2).row (j + k) ≠ patternBit cfg32 k) j hj

theorem witness_locate_none :
    let s := block .locate 31 bytesL2
    ∀ j, s.pos ≤ j → j + s.cfg.patternLen ≤ s.rowLen →
      ∃ k, k < s.cfg.patternLen ∧ rowBit s.row (j + k) ≠ patternBit s.cfg k := by
  intro s j _ hj
  have hj' : j + 24 ≤ 31 := hj
  exact (by decide +kernel : ∀ j, j < 8 → ∃ k, k < 24 ∧
    rowBit (block .locate 31 bytesL2).row (j + k) ≠ patternBit cfg32 k) j (by omega)

theorem witness_span_default :
    occursAt Cfg.default (Row.ofBytes 117 rowP2) 5 = true ∧ occursAt Cfg.default (Row.ofBytes 116 rowP2) 5 = true := by
  decide +kernel

theorem witness_frame_step :
    atP1F.atFrame = true ∧ decode atP1F.fetch = .ok (.tpmsFrame 0x001122#24 0x3344#16 0x64#8 0x00#8 0x0E#8, []) :=
  witness_frame_fetched

theorem witness_exec_next : ∃ t, exec (.sum8chk true) (atP1 .sum8chk) = .next t ∧ decide (t.fsm = .mapemit) = true :=
  exists_next (by decide +kernel)
theorem witness_exec_raises :
    ∃ t, exec (.extract false) (block .extract 87 rowP1) = .next t
      ∧ decide (t.lastErr = some .insufficientBits) = true := exists_next (by decide +kernel)
theorem witness_exec_sets_flag :
    ∃ t, exec (.locate false) (block .locate 32 bytesL2) = .next t ∧ decide (t.fMatch = true) = true :=
  exists_next (by decide +kernel)

theorem witness_record_valid :
    (atP1 .mapemit).operates = true ∧ (atP1 .mapemit).pins.level = .S ∧ (atP1 .mapemit).recValid = true
      ∧ (atP1 .advance).operates = true ∧ (atP1 .advance).recValid = false := by decide +kernel
theorem witness_record_step : ∃ t, step (atP1 .mapemit) = .next t ∧ decide (t.count = 1) = true :=
  exists_next (by decide +kernel)

/-- `MemRead` of two bytes that end with the row, and one bit further. -/
theorem witness_memread : 1 ≤ 2 ∧ 96 + 8 * 2 ≤ rowOfP1.len ∧ rowOfP1.len < 97 + 8 * 2 := by decide +kernel
theorem witness_byte_read : 104 + 8 ≤ rowOfP1.len ∧ 104 % 8 = 0 ∧ 103 + 8 ≤ rowOfP1.len ∧ 103 % 8 ≠ 0 := by
  decide +kernel
theorem witness_fields : extractFrame rowOfP1 24 = some frameP1 := by decide +kernel

/-- Two rows of 12 bits that differ only in the provider's unused bits. -/
theorem witness_beyond :
    let row : Row := ⟨12, [(0, 0x7F#8), (1, 0xF0#8)]⟩
    let row' : Row := ⟨12, [(0, 0x7F#8), (1, 0xFF#8)]⟩
    row ≠ row' ∧ row.len = row'.len ∧ ∀ i, i < row.len → rowBit row i = rowBit row' i := by decide +kernel

theorem witness_rows_canonical :
    (atP1 .mapemit).rows.wf = true ∧ ∃ t, step (atP1 .mapemit) = .next t := by
  refine ⟨by decide +kernel, ?_⟩
  obtain ⟨t, h, -⟩ := witness_record_step
  exact ⟨t, h⟩

theorem witness_short_row : (Row.ofBytes 23 rowP1).len < cfg32.patternLen := by decide +kernel

/-- The two occurrences of V-L4: found from 0, found from the later 0, none from 24. -/
theorem witness_locate_laws :
    let row := Row.ofBytes 47 [0x7F#8, 0xFF#8, 0x00#8, 0xFF#8, 0xFE#8, 0x00#8]
    locate cfg32 row 1 = some 23 ∧ 1 ≤ 20 ∧ 20 ≤ 23 ∧ locate cfg32 row 24 = none ∧ 24 ≤ 30 := by decide +kernel

theorem witness_overlap :
    let row := Row.ofBytes 47 [0x7F#8, 0xFF#8, 0x00#8, 0xFF#8, 0xFE#8, 0x00#8]
    occursAt Cfg.default row 0 = true ∧ occursAt Cfg.default row 23 = true := by decide +kernel

theorem witness_candidate : candidates cfg32 rowOfP1 = [0] ∧ candidates cfg32 (Row.ofBytes 117 rowP2) = [5] := by
  decide +kernel
/-- Two frames in one row: the second candidate is the first occurrence from 2 on, and none follows it. -/
theorem witness_next_candidate :
    let row := Row.ofBytes 200 (rowP1.take 11 ++ rowP1)
    1 ≤ cfg32.scanStep ∧ (candidates cfg32 row)[0]? = some 0 ∧ (candidates cfg32 row)[1]? = some 88
      ∧ locate cfg32 row 2 = some 88 ∧ locate cfg32 row 90 = none := by decide +kernel
theorem witness_tried : occursAt Cfg.default rowOfP1 0 = true ∧ 0 + 112 ≤ rowOfP1.len := by decide +kernel

/-- The count's bounds: a row that has the span, at its boundary, and one that has not. -/
theorem witness_count :
    cfg32.wf = true ∧ cfg32.tailAlign + cfg32.minSpan = rowOfP1.len ∧ cfg32.fits rowOfP1.len = true
      ∧ (Row.ofBytes 88 rowP1).len < cfg32.tailAlign + cfg32.minSpan := by decide +kernel

theorem witness_no_preamble (i : Nat) : occursAt cfg32 (Row.ofBytes 0 []) i = false := by
  simp [occursAt, cfg32, Cfg.default, Row.ofBytes, Row.ofBits]

/-- One frame in two rows that differ before and after it. -/
theorem witness_frame_only :
    let row' := Row.ofBytes 96 ([0xFF#8, 0xFF#8, 0xFF#8] ++ rowP1.drop 3)
    (24 + 64 ≤ rowOfP1.len ∧ 24 + 64 ≤ row'.len) ∧ ∀ j, j < 64 → rowBit rowOfP1 (24 + j) = rowBit row' (24 + j) := by
  decide +kernel

/-- R133: the source's wrong checksum comes of no reordering, but swapped id bytes keep the sum. -/
theorem witness_reordered :
    [frameP1.b0, frameP1.b1, frameP1.b2, frameP1.b3, frameP1.b4, frameP1.b5, frameP1.b6].Perm
      [frameP1.b1, frameP1.b0, frameP1.b2, frameP1.b3, frameP1.b4, frameP1.b5, frameP1.b6] := by decide

theorem witness_single_bit :
    accepted frameP1 = true
      ∧ (∀ n, n < 8 → n ≠ 3 → frameByte { frameP1 with b3 := 0xB3 } n = frameByte frameP1 n)
      ∧ frameByte { frameP1 with b3 := 0xB3 } 3 = frameByte frameP1 3 ^^^ (1#8 <<< 7) := by decide

theorem witness_offset : cfg32.tempOffset = 50 := rfl

theorem witness_same_record :
    accepted frameP1 = true ∧ accepted frameP2 = true
      ∧ (mapFields cfg32 frameP1).ident = (mapFields cfg32 frameP1).ident
      ∧ (mapFields cfg32 frameP1).ident ≠ (mapFields cfg32 frameP2).ident := by decide

theorem witness_decimal_zero : (decDigits 0).head? = some '0' := by decide

theorem witness_candidate_running : CandidateInv (atP1 .mapemit) ∧ ∃ t, step (atP1 .mapemit) = .next t := by
  refine ⟨⟨fun _ => ?_, fun _ => ?_, fun _ => ?_, fun _ => ?_⟩, witness_rows_canonical.2⟩ <;> decide +kernel

theorem witness_scan_running : (atP1 .mapemit).cfg.wf = true ∧ ScanInv (atP1 .mapemit) := by
  refine ⟨by decide, witness_candidate_running.1, fun _ => ?_, fun _ => ?_, fun _ => ?_, fun _ => ?_, fun _ => ?_,
    fun _ => ?_⟩ <;> decide +kernel

theorem witness_bound_running :
    (atP1 .mapemit).cfg.fits (atP1 .mapemit).rowLen = true
      ∧ (atP1 .mapemit).cfg.scanStep ≤ (atP1 .mapemit).cfg.patternLen ∧ BoundInv (atP1 .mapemit) := by
  refine ⟨by decide +kernel, by decide, ⟨?_, ?_, ?_, ?_, ?_, ?_, ?_, ?_, ?_, ?_⟩⟩ <;> decide +kernel

/-- The same with an input to come, at the largest row index of eight bits; one more does not fit. -/
theorem witness_bound_inputs :
    { atP1 .mapemit with stimuli := [.pins (pulse 255)] }.rowSelsFit = true
      ∧ { atP1 .mapemit with stimuli := [.pins (pulse 256)] }.rowSelsFit = false := by decide +kernel

theorem witness_span_covers :
    (atP1 .mapemit).cfg.spanCovers = true ∧ (atP1 .mapemit).lastErr ≠ some .insufficientBits := by decide

/-- The same block with other values in the registers that hold none: before a START, and past the frame. -/
theorem witness_agree :
    AgreeLive (block .idle 0 []) { block .idle 0 [] with pos := 9, m := 9, acc := 9, fb := frameP2, errM := 9, rsel := 9 }
      ∧ AgreeLive (atP1 .advance) { atP1 .advance with pos := 9, acc := 9, fb := frameP2, errM := 9 } := by
  refine ⟨⟨rfl, rfl, rfl, rfl, rfl, rfl, rfl, rfl, rfl, rfl, ?_, ?_, ?_, ?_, ?_⟩,
    ⟨rfl, rfl, rfl, rfl, rfl, rfl, rfl, rfl, rfl, rfl, ?_, ?_, ?_, ?_, ?_⟩⟩ <;> decide

theorem witness_start_past :
    let s := { block .idle 0 [] with stimuli := [.pins (pulse 0)] }
    let s' := { s with fsm := .done, count := 7, lastErr := some .checksumMismatch, fb := frameP2 }
    s ≠ s' ∧ s.cfg = s'.cfg ∧ s.rows = s'.rows ∧ s.stimuli = s'.stimuli ∧ s.emitted = s'.emitted := by decide

theorem witness_end_of_run :
    afterP1.cfg.wf = true ∧ ScanInv afterP1 ∧ afterP1.busy = true
      ∧ ∃ t, step afterP1 = .next t ∧ decide (t.fsm = .done) = true := by
  refine ⟨by decide, ⟨⟨fun h => absurd h (by decide), fun h => absurd h (by decide), fun h => absurd h (by decide),
    fun h => absurd h (by decide)⟩, fun _ => ?_, fun _ => ?_, fun _ => ?_, fun h => absurd h (by decide), fun _ => ?_,
    fun _ => ?_⟩, by decide, exists_next (by decide +kernel)⟩ <;> decide +kernel

theorem witness_invocation :
    let s := { block .idle 112 rowP1 with stimuli := [.pins (pulse 0)] }
    s.cfg.wf = true ∧ s.fsm = .idle ∧ s.stimuli = [.pins (pulse 0)] ∧ (pulse 0).start = true
      ∧ s.undisturbed = true ∧ scanCount s.cfg (s.rowNamed 0) = 1 := by decide +kernel

end Sys2Proof.Tests
end

section
/-! SUPPORT. What every operating step has in common: it answers a next state. -/

namespace Sys2Proof.Machine

/-- Every constructor's meaning answers a next state (R10, R188). -/
theorem exec_answers_next (i : Instr) (s : State) : ∃ t, exec i s = .next t := by
  cases i <;> exact ⟨_, rfl⟩

/-- What the block fetches is always one instruction with nothing after it (R77). -/
theorem decode_fetch (s : State) : ∃ i, decode s.fetch = .ok (i, []) := by
  cases h : s.atFrame
  · exact ⟨_, fetch_selector h⟩
  · exact ⟨_, fetch_frame h⟩

/-- A step without a reset and without a placed row runs what it fetches. -/
theorem step_of_operates {s : State} (ho : s.operates = true) : step s = runFetched s := by
  have block (hr : s.pins.rst = false) : blockStep s = runFetched s := by simp [blockStep, hr]
  unfold State.operates at ho
  unfold step
  split at ho
  · cases ho
  · next p rest hs => simpa [hs] using block (by simpa [State.pins, hs] using ho)
  · next hs => simpa [hs] using block (by simp [State.pins, hs, Pins.quiet])

/-- The instruction fetched is the one performed, and the environment's step is then over. -/
theorem runFetched_of_exec {s t : State} {i : Instr} {rest : List Byte} (hd : decode s.fetch = .ok (i, rest))
    (he : exec i s = .next t) : runFetched s = .next t.dropStimulus := by
  simp [runFetched, hd, he, afterExec]

/-- Settles O10: every instruction has a meaning, and every operating step finds one to perform. -/
theorem everyOperationAnswersNext : Obligations.EveryOperationAnswersNext := by
  refine ⟨exec_answers_next, fun s ho => ?_⟩
  obtain ⟨i, hd⟩ := decode_fetch s
  obtain ⟨t, he⟩ := exec_answers_next i s
  exact ⟨t.dropStimulus, (step_of_operates ho).trans (runFetched_of_exec hd he)⟩

end Sys2Proof.Machine
end

section
/-! SUPPORT. The invariants in IDLE, where no register belongs to an invocation. -/

namespace Sys2Proof.Machine

theorem CandidateInv.of_idle {s : State} (h : s.fsm = .idle) : CandidateInv s := by
  constructor <;> simp [h, Fsm.hasMatch, Fsm.pastSpan, Fsm.hasFrame]

theorem ScanInv.of_idle {s : State} (h : s.fsm = .idle) : ScanInv s := by
  have hb : s.busy = false := by simp [State.busy, h, Fsm.running]
  have hm : s.fsm.hasMatch = false := by simp [h, Fsm.hasMatch]
  constructor <;> simp [hb, hm, CandidateInv.of_idle h]

/-- A reset empties every register of OPEN width; only the inputs to come are the environment's. -/
theorem BoundInv.resetBlock {s : State} (h : s.rowSelsFit = true) : BoundInv s.resetBlock where
  posFits := Nat.two_pow_pos _
  mFits := Nat.two_pow_pos _
  errMFits := Nat.two_pow_pos _
  countFits := Nat.two_pow_pos _
  rselFits := Nat.two_pow_pos _
  inputsFit := h
  atLocate := by simp
  atMatch := by simp [Fsm.hasMatch]
  beforeEmit := by simp [Fsm.hasMatch]
  afterEmit := by simp

/-- Settles O53: the reset state is in IDLE with empty registers, and is what a reset makes of itself. -/
theorem resetMeetsTheInvariants : Obligations.ResetMeetsTheInvariants :=
  ⟨.of_idle rfl, .of_idle rfl, BoundInv.resetBlock (s := State.reset) rfl, by decide⟩

end Sys2Proof.Machine
end

section
/-! SUPPORT. The bounds of the registers of OPEN width through each write of a step (R22, R27, R111, R112). -/

namespace Sys2Proof.Machine

variable {s : State}

/-- The index width of R7 (c) holds every bit index up to the row's length. -/
theorem lt_wIdx_of_fits {c : Cfg} {len i : Nat} (h : c.fits len = true) (hi : i ≤ len) : i < 2 ^ c.wIdx := by
  simp only [Cfg.fits, Bool.and_eq_true, decide_eq_true_eq] at h
  omega

/-- The count width of R7 (d) holds every count up to the row's length. -/
theorem lt_wCnt_of_fits {c : Cfg} {len n : Nat} (h : c.fits len = true) (hn : n ≤ len) : n < 2 ^ c.wCnt := by
  simp only [Cfg.fits, Bool.and_eq_true, decide_eq_true_eq] at h
  omega

theorem freeIndexOf_lt (c : Cfg) (n : Nat) : freeIndexOf c n < 2 ^ c.wIdx := Nat.mod_lt _ (Nat.two_pow_pos _)

theorem rowSelsFit_dropStimulus (h : s.rowSelsFit = true) : s.dropStimulus.rowSelsFit = true :=
  List.all_eq_true.2 fun x hx => List.all_eq_true.1 h x (List.mem_of_mem_tail hx)

/-- The `row_sel` input of the present step fits its port; at rest it is 0. -/
theorem pins_rowSel_lt (h : s.rowSelsFit = true) : s.pins.rowSel < 2 ^ s.cfg.wRow := by
  unfold State.pins
  split
  · next p rest hs => simpa [Stimulus.rowSelFits] using List.all_eq_true.1 h (.pins p) (by simp [hs])
  · exact Nat.two_pow_pos _

/-- Ending the environment's step touches no register. -/
theorem BoundInv.dropStimulus (h : BoundInv s) : BoundInv s.dropStimulus :=
  { h with inputsFit := rowSelsFit_dropStimulus h.inputsFit }

/-- Placing a row leaves the row of a running invocation, the only one the bounds speak of. -/
theorem BoundInv.placeRow {r : Nat} {bits : List Bool} (h : BoundInv s) (hd : s.disturbs r bits = false) :
    BoundInv (s.placeRow r bits) :=
  have hlen (hb : s.busy = true) : (s.placeRow r bits).rowLen = s.rowLen := congrArg Row.len (State.placeRow_row hb hd)
  { h with
    atLocate := fun hf => by
      rw [hlen (by rw [State.busy, show s.fsm = .locate from hf]; rfl)]
      exact h.atLocate hf
    atMatch := fun hm => by
      rw [hlen (by revert hm; simp only [State.placeRow_fsm, State.busy]; cases s.fsm <;> decide)]
      exact h.atMatch hm }

/-- START writes 0 or a value of the register's width. -/
theorem BoundInv.beginInvocation (h : BoundInv s) : BoundInv s.beginInvocation where
  posFits := Nat.two_pow_pos _
  mFits := freeIndexOf_lt _ _
  errMFits := freeIndexOf_lt _ _
  countFits := Nat.two_pow_pos _
  rselFits := pins_rowSel_lt h.inputsFit
  inputsFit := h.inputsFit
  atLocate := by simp
  atMatch := by simp [Fsm.hasMatch]
  beforeEmit := by simp [Fsm.hasMatch]
  afterEmit := by simp

/-- LOCATE's match lies at or after `pos`, wholly in the row (R90). -/
theorem BoundInv.found {i : Nat} (h : BoundInv s) (hfit : s.cfg.fits s.rowLen = true) (hf : s.fsm = .locate)
    (hi : locate s.cfg s.row s.pos = some i) : BoundInv (s.found i) :=
  have ⟨hpos, hend⟩ := locate_bound hi
  have ⟨hcount, _⟩ := h.atLocate hf
  { h with
    mFits := lt_wIdx_of_fits hfit ((Nat.le_add_right _ _).trans hend)
    atLocate := by simp
    atMatch := fun _ => hend
    beforeEmit := fun _ _ => hcount.trans hpos
    afterEmit := by simp }

/-- The end of an invocation leaves the bounded registers alone. -/
theorem BoundInv.enter_done (h : BoundInv s) : BoundInv (s.enter .done) :=
  { h with
    atLocate := by simp
    atMatch := by simp [Fsm.hasMatch]
    beforeEmit := by simp [Fsm.hasMatch]
    afterEmit := by simp }

/-- A candidate that is not over stays within its bounds from one of its states to another. -/
theorem BoundInv.enter_match {f : Fsm} (h : BoundInv s) (hm : s.fsm.hasMatch = true) (hs : s.fsm ≠ .advance)
    (hl : f ≠ .locate) (ha : f ≠ .advance) : BoundInv (s.enter f) :=
  { h with
    atLocate := fun hf => absurd hf hl
    atMatch := fun _ => h.atMatch hm
    beforeEmit := fun _ _ => h.beforeEmit hm hs
    afterEmit := fun hf => absurd hf ha }

theorem BoundInv.truncate (h : BoundInv s) : BoundInv s.truncate := { h.enter_done with }

theorem BoundInv.loadFrame (b : RawFrame) (h : BoundInv s) (hf : s.fsm = .extract) : BoundInv (s.loadFrame b) :=
  { h.enter_match (f := .sum8chk) (by rw [hf]; rfl) (by simp [hf]) (by simp) (by simp) with }

theorem BoundInv.setAcc (v : Byte) (h : BoundInv s) : BoundInv (s.setAcc v) := { h with }

/-- Raising an error copies the match index, and counts no record. -/
theorem BoundInv.raise (k : ErrKind) (h : BoundInv s) (hm : s.fsm.hasMatch = true) (hs : s.fsm ≠ .advance) :
    BoundInv (s.raise k) :=
  { h with
    errMFits := h.mFits
    atLocate := by simp
    atMatch := fun _ => h.atMatch hm
    beforeEmit := by simp
    afterEmit := fun _ => (h.beforeEmit hm hs).trans (Nat.le_succ _) }

/-- The candidate's record is one more than those of the bits before it, so that its number is within the row. -/
theorem BoundInv.emitRecord (h : BoundInv s) (hwf : s.cfg.wf = true) (hfit : s.cfg.fits s.rowLen = true)
    (hf : s.fsm = .mapemit) : BoundInv s.emitRecord :=
  have hm : s.fsm.hasMatch = true := by rw [hf]; rfl
  have hcount : s.count ≤ s.m := h.beforeEmit hm (by simp [hf])
  have hlen : 1 ≤ s.cfg.patternLen := by
    simp only [Cfg.wf, Bool.and_eq_true, decide_eq_true_eq] at hwf
    exact hwf.1.1
  { h with
    countFits := lt_wCnt_of_fits hfit ((Nat.add_le_add hcount hlen).trans (h.atMatch hm))
    atLocate := by simp
    atMatch := fun _ => h.atMatch hm
    beforeEmit := by simp
    afterEmit := fun _ => Nat.succ_le_succ hcount }

/-- ADVANCE moves by SCAN_STEP, at least 1 and at most the pattern's length, so `pos` is still within the row. -/
theorem BoundInv.advancePos (h : BoundInv s) (hwf : s.cfg.wf = true) (hfit : s.cfg.fits s.rowLen = true)
    (hstep : s.cfg.scanStep ≤ s.cfg.patternLen) (hf : s.fsm = .advance) : BoundInv s.advancePos :=
  have hend : s.m + s.cfg.patternLen ≤ s.rowLen := h.atMatch (by rw [hf]; rfl)
  have hpos : s.m + s.cfg.scanStep ≤ s.rowLen := (Nat.add_le_add_left hstep _).trans hend
  have hone : 1 ≤ s.cfg.scanStep := by
    simp only [Cfg.wf, Bool.and_eq_true, decide_eq_true_eq] at hwf
    exact hwf.1.2
  have hcount : s.count ≤ s.m + s.cfg.scanStep := (h.afterEmit hf).trans (Nat.add_le_add_left hone _)
  { h with
    posFits := lt_wIdx_of_fits hfit hpos
    atLocate := fun _ => ⟨hcount, hcount.trans hpos⟩
    atMatch := by simp [Fsm.hasMatch]
    beforeEmit := by simp [Fsm.hasMatch]
    afterEmit := by simp }

/-- SUM8CHK, from a loaded frame, in both verdicts. -/
theorem BoundInv.accept (v : Byte) (h : BoundInv s) (hf : s.fsm = .sum8chk) :
    BoundInv ((s.setAcc v).enter .mapemit) :=
  (h.setAcc v).enter_match (by rw [State.setAcc_fsm, hf]; rfl) (by simp [hf]) (by simp) (by simp)

theorem BoundInv.reject (v : Byte) (h : BoundInv s) (hf : s.fsm = .sum8chk) :
    BoundInv ((s.setAcc v).raise .checksumMismatch) :=
  (h.setAcc v).raise _ (by rw [State.setAcc_fsm, hf]; rfl) (by simp [hf])

/-- The one step of level F is a frame loaded, then accepted and emitted, or rejected. -/
theorem BoundInv.decodeCandidate (b : RawFrame) (h : BoundInv s) (hwf : s.cfg.wf = true)
    (hfit : s.cfg.fits s.rowLen = true) (hf : s.fsm = .extract) : BoundInv (s.decodeCandidate b) := by
  have hload : BoundInv (s.loadFrame b) := h.loadFrame b hf
  rcases s.decodeCandidate_cases b with ⟨-, hu⟩ | ⟨-, hu⟩ <;> rw [hu]
  · exact (hload.accept _ rfl).emitRecord hwf hfit rfl
  · exact hload.reject _ rfl

/-- Settles O54: each write a step can make keeps the bounds. -/
theorem stepKeepsTheWidths : Obligations.StepKeepsTheWidths := by
  intro s t hwf hfit hstep h hst
  rcases step_next hst with ⟨r, bits, rest, -, hd, rfl⟩ | ⟨-, rfl⟩ | ⟨ho, -⟩
  · exact (h.placeRow hd).dropStimulus
  · exact (BoundInv.resetBlock h.inputsFit).dropStimulus
  obtain ⟨u, rfl, hu⟩ := operate_cases ho hst
  refine BoundInv.dropStimulus ?_
  rcases hu with ⟨ha, rfl⟩ | ⟨-, hu⟩
  · obtain ⟨-, hf, -⟩ := atFrame_iff.1 ha
    exact h.decodeCandidate _ hwf hfit hf
  rcases hu with ⟨-, -, rfl⟩ | ⟨-, -, rfl⟩ | ⟨i, hf, hi, rfl⟩ | ⟨-, -, rfl⟩ | ⟨hf, -, rfl⟩ | ⟨-, -, rfl⟩ |
    ⟨b, hf, -, rfl⟩ | ⟨hf, -, rfl⟩ | ⟨hf, -, rfl⟩ | ⟨hf, -, rfl⟩ | ⟨hf, rfl⟩ | ⟨hf, rfl⟩
  · exact h.beginInvocation
  · exact h
  · exact h.found hfit hf hi
  · exact h.enter_done
  · exact h.enter_match (by rw [hf]; rfl) (by simp [hf]) (by simp) (by simp)
  · exact h.truncate
  · exact h.loadFrame b hf
  · exact h.raise _ (by rw [hf]; rfl) (by simp [hf])
  · exact h.accept _ hf
  · exact h.reject _ hf
  · exact h.emitRecord hwf hfit hf
  · exact h.advancePos hwf hfit hstep hf

end Sys2Proof.Machine
end

section
/-! SUPPORT. The one-step decoding of a frame against the operations of level S (R120). -/

namespace Sys2Proof.Machine

/-- Where a frame is fetched, EXTRACT finds the same frame. -/
theorem extractFrame_of_atFrame {s : State} (h : s.atFrame = true) :
    extractFrame s.row (frameStart s.cfg s.m) = some (frameBytesAt s.row (s.m + 24)) := by
  obtain ⟨-, -, hlen, hrow, -⟩ := atFrame_iff.1 h
  rw [frameStart, hlen]
  exact extractFrame_eq_some.2 ⟨hrow, rfl⟩

/-- The instruction fetched at a frame decodes in one step the frame that EXTRACT finds. -/
theorem exec_of_atFrame {s : State} {i : Instr} (h : s.atFrame = true) (hd : decode s.fetch = .ok (i, [])) :
    ∃ frame, extractFrame s.row (frameStart s.cfg s.m) = some frame
      ∧ exec i s = .next (s.decodeCandidate frame) := by
  refine ⟨_, extractFrame_of_atFrame h, ?_⟩
  injection (fetch_frame h).symm.trans hd with hpair
  injection hpair with hi
  subst hi
  rw [exec, execTpmsFrame, ofFields_of_bytes]

/-- Settles O24: EXTRACT loads the frame that was fetched, SUM8CHK decides as the one step does, and MAPEMIT follows
exactly an accepted frame. -/
theorem frameStepIsTheThreeOperations : Obligations.FrameStepIsTheThreeOperations := by
  intro s i a b c h hd
  obtain ⟨frame, hframe, hexec⟩ := exec_of_atFrame h hd
  refine ⟨s.loadFrame frame, (s.loadFrame frame).checkSum, s.decodeCandidate frame, ?_, rfl, ?_, hexec⟩
  · rw [exec, execExtract, State.extractNext, hframe]
  · rw [State.decodeCandidate]
    rcases (s.loadFrame frame).checkSum_cases with ⟨hacc, hsum⟩ | ⟨hacc, hsum⟩ <;>
      rw [State.loadFrame_fb] at hacc <;> rw [hacc, hsum]
    · simp [exec, execMapemit]
    · simp

end Sys2Proof.Machine
end

section
/-! SUPPORT. The candidates of a scan, with and without the bound on the loop (R107). -/

namespace Sys2Proof.Machine

variable {c : Cfg} {row : Row}

theorem locate_occursAt {pos m : Nat} (h : locate c row pos = some m) : occursAt c row m = true :=
  (locateFrom_eq_some.1 h).2.2.1

/-- An iteration either tries the next occurrence and goes on SCAN_STEP past it, or ends the loop (R100). -/
theorem candidatesFrom_cases (c : Cfg) (row : Row) (n pos : Nat) :
    (∃ m, locate c row pos = some m ∧ spanOk c row m = true
        ∧ candidatesFrom c row (n + 1) pos = m :: candidatesFrom c row n (m + c.scanStep))
      ∨ ((∀ m, locate c row pos = some m → spanOk c row m = false) ∧ candidatesFrom c row (n + 1) pos = []) := by
  rw [candidatesFrom]
  cases locate c row pos with
  | none => exact .inr ⟨by simp, rfl⟩
  | some m =>
    cases hs : spanOk c row m
    · exact .inr ⟨by simp [hs], by simp [hs]⟩
    · exact .inl ⟨m, rfl, hs, by simp [hs]⟩

/-- The loop tries occurrences at or after its scan start that pass the span check. -/
theorem mem_candidatesFrom {n pos m : Nat} (h : m ∈ candidatesFrom c row n pos) :
    pos ≤ m ∧ occursAt c row m = true ∧ spanOk c row m = true := by
  induction n generalizing pos with
  | zero => simp [candidatesFrom] at h
  | succ n ih =>
    rcases candidatesFrom_cases c row n pos with ⟨k, hl, hs, heq⟩ | ⟨-, heq⟩ <;> rw [heq] at h
    · have hk : pos ≤ k := (locate_bound hl).1
      rcases List.mem_cons.1 h with rfl | h
      · exact ⟨hk, locate_occursAt hl, hs⟩
      · obtain ⟨hm, hrest⟩ := ih h
        exact ⟨by omega, hrest⟩
    · simp at h

/-- Each candidate is at least SCAN_STEP past every earlier one. -/
theorem candidatesFrom_pairwise (n pos : Nat) :
    (candidatesFrom c row n pos).Pairwise (fun a b => a + c.scanStep ≤ b) := by
  induction n generalizing pos with
  | zero => exact .nil
  | succ n ih =>
    rcases candidatesFrom_cases c row n pos with ⟨m, -, -, heq⟩ | ⟨-, heq⟩ <;> rw [heq]
    · exact List.pairwise_cons.2 ⟨fun b hb => (mem_candidatesFrom hb).1, ih _⟩
    · exact .nil

/-- The first candidate from a scan start is the first occurrence, if that passes the span check. -/
theorem candidatesAt_head? {pos m : Nat} :
    (candidatesAt c row pos).head? = some m ↔ locate c row pos = some m ∧ spanOk c row m = true := by
  rw [candidatesAt]
  rcases candidatesFrom_cases c row row.len pos with ⟨k, hl, hs, heq⟩ | ⟨hno, heq⟩ <;> rw [heq]
  · rw [hl, List.head?_cons, Option.some.injEq]
    exact ⟨fun hk => ⟨hk, hk ▸ hs⟩, And.left⟩
  · simp only [List.head?_nil, reduceCtorEq, false_iff]
    rintro ⟨hl, hs⟩
    simp [hno m hl] at hs

/-- The same for the whole loop, where SCAN_STEP moves it on (R7 (b)). -/
theorem candidatesAt_cases (row : Row) (hs : 1 ≤ c.scanStep) (pos : Nat) :
    (∃ m, locate c row pos = some m ∧ spanOk c row m = true
        ∧ candidatesAt c row pos = m :: candidatesAt c row (m + c.scanStep))
      ∨ ((∀ m, locate c row pos = some m → spanOk c row m = false) ∧ candidatesAt c row pos = []) := by
  rcases candidatesFrom_cases c row row.len pos with ⟨m, hl, hm, heq⟩ | h
  · refine .inl ⟨m, hl, hm, heq.trans ?_⟩
    rw [candidatesAt, candidatesFrom_succ hs (by omega)]
  · exact .inr h

/-- The candidate after a candidate `a` is the first from the scan start `a + SCAN_STEP`. -/
theorem candidatesAt_getElem?_succ (hs : 1 ≤ c.scanStep) {n pos a : Nat}
    (h : (candidatesAt c row pos)[n]? = some a) :
    (candidatesAt c row pos)[n + 1]? = (candidatesAt c row (a + c.scanStep)).head? := by
  induction n generalizing pos with
  | zero =>
    rcases candidatesAt_cases row hs pos with ⟨k, -, -, heq⟩ | ⟨-, heq⟩ <;> rw [heq] at h ⊢
    · obtain rfl : k = a := by simpa using h
      rw [List.getElem?_cons_succ, List.head?_eq_getElem?]
    · simp at h
  | succ n ih =>
    rcases candidatesAt_cases row hs pos with ⟨k, -, -, heq⟩ | ⟨-, heq⟩ <;> rw [heq] at h ⊢
    · rw [List.getElem?_cons_succ] at h ⊢
      exact ih h
    · simp at h

/-- Settles O37: by the loop's iterations, and by their unrolling where SCAN_STEP is at least 1. -/
theorem candidatesIncrease : Obligations.CandidatesIncrease := by
  intro c row
  refine ⟨candidatesFrom_pairwise _ _, fun m hm => ?_, fun m => ?_, fun hs n a ha m => ?_⟩
  · obtain ⟨-, hocc, hspan⟩ := mem_candidatesFrom hm
    exact ⟨hocc, spanOk_iff.1 hspan⟩
  · rw [← spanOk_iff, candidates, candidatesAt_head?]
  · rw [← spanOk_iff, candidates, candidatesAt_getElem?_succ hs ha, candidatesAt_head?]

end Sys2Proof.Machine
end

section
/-! SUPPORT. What the registers of a running candidate hold, through each write of a step (R22, R23, R24, R102, R132). -/

namespace Sys2Proof.Machine

variable {s : State}

theorem Fsm.running_of_hasMatch {f : Fsm} : f.hasMatch = true → f.running = true := by cases f <;> decide

theorem Fsm.hasMatch_of_pastSpan {f : Fsm} : f.pastSpan = true → f.hasMatch = true := by cases f <;> decide

theorem Fsm.pastSpan_of_hasFrame {f : Fsm} : f.hasFrame = true → f.pastSpan = true := by cases f <;> decide

/-- Where no candidate is running, the invariant asks nothing. -/
theorem CandidateInv.of_not_hasMatch (h : s.fsm.hasMatch = false) : CandidateInv s :=
  have hspan : s.fsm.pastSpan ≠ true := fun hp => by simp [Fsm.hasMatch_of_pastSpan hp] at h
  { found := by simp [h]
    span := fun hp => absurd hp hspan
    frame := fun hp => absurd (Fsm.pastSpan_of_hasFrame hp) hspan
    valid := fun hf => absurd (by rw [hf]; rfl) hspan }

/-- The invariant reads the configuration, the row and the candidate's registers, not the inputs to come. -/
theorem CandidateInv.dropStimulus (h : CandidateInv s) : CandidateInv s.dropStimulus := { h with }

/-- While a candidate is running, a row that may be placed is not its row. -/
theorem CandidateInv.placeRow {r : Nat} {bits : List Bool} (h : CandidateInv s) (hd : s.disturbs r bits = false) :
    CandidateInv (s.placeRow r bits) := by
  cases hm : s.fsm.hasMatch with
  | false => exact .of_not_hasMatch hm
  | true =>
    have hrow : (s.placeRow r bits).row = s.row := State.placeRow_row (Fsm.running_of_hasMatch hm) hd
    refine { found := ?_, span := ?_, frame := ?_, valid := h.valid } <;> rw [hrow]
    · exact h.found
    · exact h.span
    · exact h.frame

/-- LOCATE hands on the occurrence it found from `pos`. -/
theorem CandidateInv.found_of_locate {i : Nat} (hi : locate s.cfg s.row s.pos = some i) : CandidateInv (s.found i) where
  found := fun _ => hi
  span := by simp [Fsm.pastSpan]
  frame := by simp [Fsm.hasFrame]
  valid := by simp

/-- SPANCHK lets a candidate pass with its span. -/
theorem CandidateInv.enter_extract (h : CandidateInv s) (hf : s.fsm = .spanchk)
    (hspan : spanOk s.cfg s.row s.m = true) : CandidateInv (s.enter .extract) where
  found := fun _ => h.found (by rw [hf]; rfl)
  span := fun _ => hspan
  frame := by simp [Fsm.hasFrame]
  valid := by simp

/-- EXTRACT loads the candidate's frame. -/
theorem CandidateInv.loadFrame {b : RawFrame} (h : CandidateInv s) (hf : s.fsm = .extract)
    (hb : extractFrame s.row (frameStart s.cfg s.m) = some b) : CandidateInv (s.loadFrame b) where
  found := fun _ => h.found (by rw [hf]; rfl)
  span := fun _ => h.span (by rw [hf]; rfl)
  frame := fun _ => hb
  valid := by simp

/-- SUM8CHK keeps the loaded frame, and hands on an accepted one. -/
theorem CandidateInv.accept (v : Byte) (h : CandidateInv s) (hf : s.fsm = .sum8chk) (hacc : accepted s.fb = true) :
    CandidateInv ((s.setAcc v).enter .mapemit) where
  found := fun _ => h.found (by rw [hf]; rfl)
  span := fun _ => h.span (by rw [hf]; rfl)
  frame := fun _ => h.frame (by rw [hf]; rfl)
  valid := fun _ => hacc

theorem CandidateInv.setAcc (v : Byte) (h : CandidateInv s) : CandidateInv (s.setAcc v) := { h with }

/-- A candidate past its span check is over in ADVANCE, with its match and its span. -/
theorem CandidateInv.enter_advance (h : CandidateInv s) (hp : s.fsm.pastSpan = true) :
    CandidateInv (s.enter .advance) where
  found := fun _ => h.found (Fsm.hasMatch_of_pastSpan hp)
  span := fun _ => h.span hp
  frame := by simp [Fsm.hasFrame]
  valid := by simp

theorem CandidateInv.raise (k : ErrKind) (h : CandidateInv s) (hp : s.fsm.pastSpan = true) :
    CandidateInv (s.raise k) := { h.enter_advance hp with }

theorem CandidateInv.emitRecord (h : CandidateInv s) (hf : s.fsm = .mapemit) : CandidateInv s.emitRecord :=
  { h.enter_advance (by rw [hf]; rfl) with }

/-- The one step of level F loads the candidate's frame, then accepts and emits it, or rejects it. -/
theorem CandidateInv.decodeCandidate {b : RawFrame} (h : CandidateInv s) (hf : s.fsm = .extract)
    (hb : extractFrame s.row (frameStart s.cfg s.m) = some b) : CandidateInv (s.decodeCandidate b) := by
  have hload : CandidateInv (s.loadFrame b) := h.loadFrame hf hb
  rcases s.decodeCandidate_cases b with ⟨hacc, hu⟩ | ⟨-, hu⟩ <;> rw [hu]
  · exact (hload.accept _ rfl hacc).emitRecord rfl
  · exact (hload.setAcc _).raise _ rfl

/-- Settles O51: each write a step can make leaves the next state's registers with what the invariant says, or no
candidate running. -/
theorem stepKeepsTheCandidate : Obligations.StepKeepsTheCandidate := by
  intro s t h hst
  rcases step_next hst with ⟨r, bits, rest, -, hd, rfl⟩ | ⟨-, rfl⟩ | ⟨ho, -⟩
  · exact (h.placeRow hd).dropStimulus
  · exact .of_not_hasMatch rfl
  obtain ⟨u, rfl, hu⟩ := operate_cases ho hst
  refine CandidateInv.dropStimulus ?_
  rcases hu with ⟨ha, rfl⟩ | ⟨-, hu⟩
  · obtain ⟨-, hf, -⟩ := atFrame_iff.1 ha
    exact h.decodeCandidate hf (extractFrame_of_atFrame ha)
  rcases hu with ⟨-, -, rfl⟩ | ⟨-, -, rfl⟩ | ⟨i, -, hi, rfl⟩ | ⟨-, -, rfl⟩ | ⟨hf, hspan, rfl⟩ | ⟨-, -, rfl⟩ |
    ⟨b, hf, hb, rfl⟩ | ⟨hf, -, rfl⟩ | ⟨hf, hacc, rfl⟩ | ⟨hf, -, rfl⟩ | ⟨hf, rfl⟩ | ⟨-, rfl⟩
  · exact .of_not_hasMatch rfl
  · exact h
  · exact .found_of_locate hi
  · exact .of_not_hasMatch rfl
  · exact h.enter_extract hf hspan
  · exact .of_not_hasMatch rfl
  · exact h.loadFrame hf hb
  · exact h.raise _ (by rw [hf]; rfl)
  · exact h.accept _ hf hacc
  · exact (h.setAcc _).raise _ (by rw [State.setAcc_fsm, hf]; rfl)
  · exact h.emitRecord hf
  · exact .of_not_hasMatch rfl

end Sys2Proof.Machine
end

section
/-! SUPPORT. What an instruction can write, said once; and that it writes nothing of the environment (R59, R36,
R161 (c)). -/

namespace Sys2Proof.Machine

variable {i : Instr} {s t : State}

/-- The next state of an instruction, with the two outcomes of each operation apart. -/
theorem exec_next_cases (h : exec i s = .next t) :
    ((i = .waitIdle ∨ i = .waitDone) ∧ t = s)
      ∨ ((i = .startIdle ∨ i = .startDone) ∧ t = s.beginInvocation)
      ∨ (∃ a k, i = .locate a ∧ locate s.cfg s.row s.pos = some k ∧ t = s.found k)
      ∨ (∃ a, i = .locate a ∧ locate s.cfg s.row s.pos = none ∧ t = s.enter .done)
      ∨ (∃ a, i = .spanchk a ∧ spanOk s.cfg s.row s.m = true ∧ t = s.enter .extract)
      ∨ (∃ a, i = .spanchk a ∧ spanOk s.cfg s.row s.m = false ∧ t = s.truncate)
      ∨ (∃ a b, i = .extract a ∧ extractFrame s.row (frameStart s.cfg s.m) = some b ∧ t = s.loadFrame b)
      ∨ (∃ a, i = .extract a ∧ extractFrame s.row (frameStart s.cfg s.m) = none ∧ t = s.raise .insufficientBits)
      ∨ (∃ a, i = .sum8chk a ∧ accepted s.fb = true ∧ t = (s.setAcc (sum8 s.fb)).enter .mapemit)
      ∨ (∃ a, i = .sum8chk a ∧ accepted s.fb = false ∧ t = (s.setAcc (sum8 s.fb)).raise .checksumMismatch)
      ∨ (∃ a, i = .mapemit a ∧ t = s.emitRecord)
      ∨ (∃ a, i = .advance a ∧ t = s.advancePos)
      ∨ (∃ x p y z w, i = .tpmsFrame x p y z w ∧
          let b := RawFrame.ofFields x p y z w
          (accepted b = true ∧ t = (((s.loadFrame b).setAcc (sum8 b)).enter .mapemit).emitRecord)
            ∨ (accepted b = false ∧ t = ((s.loadFrame b).setAcc (sum8 b)).raise .checksumMismatch)) := by
  cases i <;> cases h
  case waitIdle | waitDone => simp
  case startIdle | startDone => simp
  case locate => rcases s.locateNext_cases with ⟨k, hk, hu⟩ | ⟨hk, hu⟩ <;> simp [hk, hu]
  case spanchk => rcases s.checkSpan_cases with ⟨hspan, hu⟩ | ⟨hspan, hu⟩ <;> simp [hspan, hu]
  case extract => rcases s.extractNext_cases with ⟨b, hb, hu⟩ | ⟨hb, hu⟩ <;> simp [hb, hu]
  case sum8chk => rcases s.checkSum_cases with ⟨hacc, hu⟩ | ⟨hacc, hu⟩ <;> simp [hacc, hu]
  case mapemit | advance => simp
  case tpmsFrame x p y z w => simpa using s.decodeCandidate_cases (RawFrame.ofFields x p y z w)

/-- No instruction writes the configuration, the inputs to come or the rows. -/
theorem exec_environment (h : exec i s = .next t) : t.cfg = s.cfg ∧ t.stimuli = s.stimuli ∧ t.rows = s.rows := by
  rcases exec_next_cases h with ⟨-, rfl⟩ | ⟨-, rfl⟩ | ⟨_, _, -, -, rfl⟩ | ⟨_, -, -, rfl⟩ | ⟨_, -, -, rfl⟩ |
    ⟨_, -, -, rfl⟩ | ⟨_, _, -, -, rfl⟩ | ⟨_, -, -, rfl⟩ | ⟨_, -, -, rfl⟩ | ⟨_, -, -, rfl⟩ | ⟨_, -, rfl⟩ |
    ⟨_, -, rfl⟩ | ⟨_, _, _, _, _, -, ⟨-, rfl⟩ | ⟨-, rfl⟩⟩ <;> exact ⟨rfl, rfl, rfl⟩

/-- Settles O25: the rows are written by no instruction, so every row reads as before. -/
theorem noInstructionWritesMemory : Obligations.NoInstructionWritesMemory := by
  intro i s t h
  obtain ⟨hcfg, hstim, hrows⟩ := exec_environment h
  have hrow (r : Nat) : t.rowNamed r = s.rowNamed r := by rw [State.rowNamed, State.rowNamed, hrows]
  exact ⟨hcfg, hstim, hrows, fun r k => by rw [hrow r]; exact ⟨rfl, rfl⟩⟩

end Sys2Proof.Machine
end

section
/-! SUPPORT. The flags and the error registers through one instruction (R28, R29). -/

namespace Sys2Proof.Machine

variable {i : Instr} {s t : State}

/-- What one instruction other than START does to the flags and the error registers: nothing; or LOCATE sets `F_MATCH`
alone; or SPANCHK sets `F_TRUNC` alone; or an error is raised at the present candidate. -/
theorem exec_flags (h : exec i s = .next t) (hi : i ≠ .startIdle) (hd : i ≠ .startDone) :
    ((t.lastErr = s.lastErr ∧ t.errM = s.errM ∧ t.fRej = s.fRej)
      ∧ ((t.fMatch = s.fMatch ∧ t.fTrunc = s.fTrunc)
        ∨ (t.fMatch = true ∧ t.fTrunc = s.fTrunc ∧ ∃ a, i = .locate a)
        ∨ (t.fTrunc = true ∧ t.fMatch = s.fMatch ∧ ∃ a, i = .spanchk a)))
    ∨ ∃ k, t.lastErr = some k ∧ t.errM = s.m ∧ t.fRej = true ∧ t.fsm = .advance
        ∧ t.fMatch = s.fMatch ∧ t.fTrunc = s.fTrunc
        ∧ ((k = .insufficientBits ∧ ∃ a, i = .extract a)
          ∨ (k = .checksumMismatch ∧ ((∃ a, i = .sum8chk a) ∨ ∃ x p y z w, i = .tpmsFrame x p y z w))) := by
  rcases exec_next_cases h with ⟨-, rfl⟩ | ⟨rfl | rfl, -⟩ | ⟨a, _, rfl, -, rfl⟩ | ⟨_, -, -, rfl⟩ | ⟨_, -, -, rfl⟩ |
    ⟨a, rfl, -, rfl⟩ | ⟨_, _, -, -, rfl⟩ | ⟨a, rfl, -, rfl⟩ | ⟨_, -, -, rfl⟩ | ⟨a, rfl, -, rfl⟩ | ⟨_, -, rfl⟩ |
    ⟨_, -, rfl⟩ | ⟨x, p, y, z, w, rfl, ⟨-, rfl⟩ | ⟨-, rfl⟩⟩
  · simp
  · exact absurd rfl hi
  · exact absurd rfl hd
  all_goals simp

/-- Settles O26: from the four ways an instruction treats the flags and the error registers. -/
theorem flagsAreStickyAndErrorsAreWrittenTogether : Obligations.FlagsAreStickyAndErrorsAreWrittenTogether := by
  intro i s t h hi hd
  rcases exec_flags h hi hd with ⟨herr, ⟨hm, ht⟩ | ⟨hm, ht, hloc⟩ | ⟨ht, hm, hspan⟩⟩ |
    ⟨k, hlast, herrM, hrej, hfsm, hm, ht, hwho⟩
  · simp [herr, hm, ht]
  · simp [herr, hm, ht, hloc]
  · simp [herr, hm, ht, hspan]
  · refine ⟨by simp [hm], by simp [hrej], by simp [ht], by simp [hm], by simp [ht], .inr ?_⟩
    rcases hwho with ⟨rfl, hwho⟩ | ⟨rfl, hwho⟩
    · exact .inl ⟨hlast, herrM, hrej, hfsm, hwho⟩
    · exact .inr ⟨hlast, herrM, hrej, hfsm, hwho⟩

end Sys2Proof.Machine
end

section
/-! SUPPORT. The record port and the sink (R31, R144, R152). -/

namespace Sys2Proof.Machine

variable {s t : State}

theorem recValid_iff : s.recValid = true ↔ s.fsm = .mapemit := by simp [State.recValid]

/-- The port's 9 bits are the temperature modulo 512, whatever the offset. -/
theorem recTemp_eq_ofInt (c : Cfg) (b : RawFrame) : recTemp c b = BitVec.ofInt 9 (fieldTemperature c b) := by
  rw [recTemp, fieldTemperature, Int.sub_eq_add_neg, BitVec.ofInt_add, BitVec.ofInt_neg, BitVec.ofInt_natCast,
    BitVec.ofInt_natCast, BitVec.ofNat_toNat, BitVec.sub_eq_add_neg]

/-- While `rec_valid = 1` the port carries the fields of the record of `fb`. -/
theorem recordPort_of_mapemit (hf : s.fsm = .mapemit) :
    let r := mapFields s.cfg s.fb
    s.recordPort = some ⟨r.ident, r.status, r.pressure, BitVec.ofInt 9 r.temperature, r.raw⟩ := by
  rw [State.recordPort, if_pos (recValid_iff.2 hf), recTemp_eq_ofInt]
  rfl

theorem recordPort_of_not_valid (h : s.recValid = false) : s.recordPort = none := by
  simp [State.recordPort, h]

/-- In an operating step at level S, MAPEMIT alone hands a record to the sink. -/
theorem step_emitted (ho : s.operates = true) (hl : s.pins.level = .S) (h : step s = .next t) :
    (s.fsm = .mapemit ∧ t = s.emitRecord.dropStimulus) ∨ (s.fsm ≠ .mapemit ∧ t.emitted = s.emitted) := by
  obtain ⟨u, rfl, hu⟩ := operate_cases ho h
  rcases hu with ⟨ha, -⟩ | ⟨-, hu⟩
  · obtain ⟨hF, -⟩ := atFrame_iff.1 ha
    simp [hl] at hF
  rcases hu with ⟨hf | hf, -, rfl⟩ | ⟨hf | hf, -, rfl⟩ | ⟨_, hf, -, rfl⟩ | ⟨hf, -, rfl⟩ | ⟨hf, -, rfl⟩ | ⟨hf, -, rfl⟩ |
    ⟨_, hf, -, rfl⟩ | ⟨hf, -, rfl⟩ | ⟨hf, -, rfl⟩ | ⟨hf, -, rfl⟩ | ⟨hf, rfl⟩ | ⟨hf, rfl⟩
  any_goals exact .inr ⟨by simp [hf], rfl⟩
  exact .inl ⟨hf, rfl⟩

/-- Settles O27: MAPEMIT, the state in which the port is valid, hands over the port's record and goes to ADVANCE. -/
theorem recordsAreEmittedWhileValid : Obligations.RecordsAreEmittedWhileValid := by
  intro s t ho hl h
  rcases step_emitted ho hl h with ⟨hf, rfl⟩ | ⟨hf, he⟩
  · have hv : s.recValid = true := recValid_iff.2 hf
    refine ⟨fun _ => ⟨rfl, rfl, mapFields s.cfg s.fb, _, rfl, recordPort_of_mapemit hf, rfl, rfl, rfl, rfl, rfl⟩, ?_⟩
    simp [hv]
  · have hv : s.recValid = false := Bool.eq_false_iff.2 (mt recValid_iff.1 hf)
    exact ⟨by simp [hv], fun _ => ⟨he, recordPort_of_not_valid hv⟩⟩

end Sys2Proof.Machine
end

section
/-! SUPPORT. The reset step (R40, R200) and the layout of `STATUS` (R32). -/

namespace Sys2Proof.Machine

/-- A step with `rst` asserted resets the block, whatever its state. -/
theorem step_of_rst {s : State} (hr : s.pins.rst = true) : step s = .next s.resetBlock.dropStimulus := by
  have hb : blockStep s = .next s.resetBlock.dropStimulus := by simp [blockStep, hr]
  unfold step
  split
  · next hs => simp [State.pins, hs, Pins.quiet] at hr
  · exact hb
  · exact hb

theorem status_reset : State.reset.status = 0#10 := by decide

/-- Settles O1: a reset step leaves the registers of `State.reset` and what `State.resetBlock` keeps. -/
theorem resetValues : Obligations.ResetValues := by
  refine ⟨fun s p rest hs hr => ⟨_, step_of_rst (by simpa [State.pins, hs] using hr), ?_⟩,
    rfl, rfl, rfl, rfl, rfl, rfl, rfl, rfl, rfl, status_reset⟩
  have hstim : s.resetBlock.dropStimulus.stimuli = rest := by simp [hs]
  exact ⟨rfl, rfl, rfl, rfl, rfl, rfl, rfl, rfl, rfl, status_reset, rfl, rfl, rfl, hstim⟩

theorem Fsm.running_iff {f : Fsm} : f.running = true ↔ f ≠ .idle ∧ f ≠ .done := by cases f <;> decide

/-- Bit `k` of `STATUS`: the code's, one of the five single bits, or the error code's. -/
theorem status_getLsbD (s : State) (k : Nat) :
    s.status.getLsbD k = if k < 3 then s.fsm.code.getLsbD k else if k = 3 then s.busy else if k = 4 then s.isDone
      else if k = 5 then s.fMatch else if k = 6 then s.fRej else if k = 7 then s.fTrunc
      else (errCode s.lastErr).getLsbD (k - 8) := by
  rw [State.status]
  iterate 6 rw [BitVec.getLsbD_append]
  simp only [BitVec.getLsbD_ofBool, Nat.sub_sub]
  rcases Nat.lt_or_ge k 8 with hk | hk
  · interval_cases k <;> rfl
  · repeat rw [if_neg (by omega)]

/-- Settles O2: each field of `STATUS` is a part of the concatenation, counted from its right end. -/
theorem statusLayout : Obligations.StatusLayout := by
  intro s
  have hbusy : s.busy = true ↔ s.fsm ≠ .idle ∧ s.fsm ≠ .done := Fsm.running_iff
  have hdone : s.isDone = true ↔ s.fsm = .done := by simp [State.isDone]
  refine ⟨?_, ?_, ?_, ?_, ?_, ?_, ?_, fun k hk => BitVec.getLsbD_of_ge _ _ hk⟩
  · refine BitVec.eq_of_getLsbD_eq fun k hk => ?_
    simp [status_getLsbD, hk]
  · rw [status_getLsbD]; exact hbusy
  · rw [status_getLsbD]; exact hdone
  · exact status_getLsbD s 5
  · exact status_getLsbD s 6
  · exact status_getLsbD s 7
  · refine BitVec.eq_of_getLsbD_eq fun k hk => ?_
    have hhigh : s.status.getLsbD (8 + k) = (errCode s.lastErr).getLsbD k := by
      rw [status_getLsbD, Nat.add_sub_cancel_left]
      repeat rw [if_neg (by omega)]
    simp [hk, hhigh]

end Sys2Proof.Machine
end

section
/-! SUPPORT. What a step reads: two states that agree on the registers with a value take the same step (R37, R41, R201). -/

namespace Sys2Proof.Machine

variable {s s' : State}

theorem AgreeLive.busy (h : AgreeLive s s') : s.busy = s'.busy := congrArg Fsm.running h.fsm

theorem AgreeLive.pins (h : AgreeLive s s') : s.pins = s'.pins := by rw [State.pins, State.pins, h.stimuli]

theorem AgreeLive.operates (h : AgreeLive s s') : s.operates = s'.operates := by
  rw [State.operates, State.operates, h.stimuli]

/-- A running invocation has one row in both. -/
theorem AgreeLive.row (h : AgreeLive s s') (hb : s.busy = true) : s.row = s'.row := by
  rw [State.row, State.row, State.rowNamed, State.rowNamed, h.rows, h.rsel hb]

/-- Whether a row may be placed depends on `rsel` only while an invocation is running. -/
theorem AgreeLive.disturbs (h : AgreeLive s s') (r : Nat) (bits : List Bool) :
    s.disturbs r bits = s'.disturbs r bits := by
  rw [State.disturbs, State.disturbs, ← h.busy, ← h.rows]
  cases hb : s.busy with
  | false => rfl
  | true => rw [h.rsel hb]

/-- A candidate at its extraction is decoded at the same level in both. -/
theorem AgreeLive.atFrame (h : AgreeLive s s') : s.atFrame = s'.atFrame := by
  by_cases hf : s.fsm = .extract
  · have hm : s.m = s'.m := h.m (by rw [hf]; rfl)
    have hrow : s.row = s'.row := h.row (by rw [State.busy, hf]; rfl)
    rw [State.atFrame, State.atFrame, State.rowLen, State.rowLen, h.pins, h.fsm, h.cfg, hm, hrow]
  · have hf' : s'.fsm ≠ .extract := h.fsm ▸ hf
    rw [Bool.eq_iff_iff, atFrame_iff, atFrame_iff]
    simp [hf, hf']

/-! ### Each write keeps the agreement -/

theorem AgreeLive.dropStimulus (h : AgreeLive s s') : AgreeLive s.dropStimulus s'.dropStimulus :=
  { h with stimuli := congrArg List.tail h.stimuli }

theorem AgreeLive.placeRow (h : AgreeLive s s') (r : Nat) (bits : List Bool) :
    AgreeLive (s.placeRow r bits) (s'.placeRow r bits) :=
  { h with rows := congrArg (Memory.setRow · r (Row.ofBits bits)) h.rows }

/-- A reset gives every register but the model's own counter one value. -/
theorem AgreeLive.resetBlock (h : AgreeLive s s') : AgreeLive s.resetBlock s'.resetBlock := by
  constructor <;> simp [h.cfg, h.rows, h.stimuli, h.emitted]

/-- START leaves without a value only registers that nothing reads before they are written. -/
theorem AgreeLive.beginInvocation (h : AgreeLive s s') : AgreeLive s.beginInvocation s'.beginInvocation := by
  constructor <;> simp [h.cfg, h.rows, h.stimuli, h.emitted, h.pins, Fsm.hasMatch, Fsm.hasFrame]

/-- A change of control state keeps the agreement, where it makes no register live that was not. -/
theorem AgreeLive.enter {f : Fsm} (h : AgreeLive s s') (hb : f.running = true → s.busy = true) (hl : f ≠ .locate)
    (hm : f.hasMatch = true → s.fsm.hasMatch = true) (hfb : f.hasFrame = true → s.fsm.hasFrame = true) :
    AgreeLive (s.enter f) (s'.enter f) :=
  { h with
    fsm := rfl
    rsel := fun hr => h.rsel (hb hr)
    pos := fun hf => absurd hf hl
    m := fun hr => h.m (hm hr)
    fb := fun hr => h.fb (hfb hr) }

/-- In DONE no register of a candidate is live. -/
theorem AgreeLive.enter_done (h : AgreeLive s s') : AgreeLive (s.enter .done) (s'.enter .done) :=
  h.enter (by simp [Fsm.running]) (by decide) (by simp [Fsm.hasMatch]) (by simp [Fsm.hasFrame])

/-- LOCATE searches the same row from the same `pos`. -/
theorem AgreeLive.locateNext (h : AgreeLive s s') (hf : s.fsm = .locate) : AgreeLive s.locateNext s'.locateNext := by
  have hb : s.busy = true := by rw [State.busy, hf]; rfl
  rw [State.locateNext, State.locateNext, ← h.cfg, ← h.row hb, ← h.pos hf]
  split
  · exact { h with
      fsm := rfl, fMatch := rfl, rsel := fun _ => h.rsel hb, pos := by simp, m := fun _ => rfl
      fb := by simp [Fsm.hasFrame] }
  · exact h.enter_done

theorem AgreeLive.checkSpan (h : AgreeLive s s') (hf : s.fsm = .spanchk) : AgreeLive s.checkSpan s'.checkSpan := by
  have hb : s.busy = true := by rw [State.busy, hf]; rfl
  have hm : s.fsm.hasMatch = true := by rw [hf]; rfl
  rw [State.checkSpan, State.checkSpan, ← h.cfg, ← h.row hb, ← h.m hm]
  split
  · exact h.enter (fun _ => hb) (by decide) (fun _ => hm) (by simp [Fsm.hasFrame])
  · exact { h.enter_done with fTrunc := rfl }

/-- EXTRACT's load makes `fb` live, with one frame in both. -/
theorem AgreeLive.loadFrame (b : RawFrame) (h : AgreeLive s s') (hf : s.fsm = .extract) :
    AgreeLive (s.loadFrame b) (s'.loadFrame b) :=
  { h with
    fsm := rfl
    rsel := fun _ => h.rsel (by rw [State.busy, hf]; rfl)
    pos := by simp
    m := fun _ => h.m (by rw [hf]; rfl)
    fb := fun _ => rfl }

theorem AgreeLive.setAcc (v : Byte) (h : AgreeLive s s') : AgreeLive (s.setAcc v) (s'.setAcc v) := { h with }

/-- A candidate that is over in ADVANCE leaves its match live, and nothing else of it. -/
theorem AgreeLive.enter_advance (h : AgreeLive s s') (hm : s.fsm.hasMatch = true) :
    AgreeLive (s.enter .advance) (s'.enter .advance) :=
  h.enter (fun _ => Fsm.running_of_hasMatch hm) (by decide) (fun _ => hm) (by simp [Fsm.hasFrame])

/-- Raising an error makes `err_m` live, with the match index of both. -/
theorem AgreeLive.raise (k : ErrKind) (h : AgreeLive s s') (hm : s.fsm.hasMatch = true) :
    AgreeLive (s.raise k) (s'.raise k) :=
  { h.enter_advance hm with fRej := rfl, lastErr := rfl, errM := fun _ => h.m hm }

/-- MAPEMIT's record is of the same frame. -/
theorem AgreeLive.emitRecord (h : AgreeLive s s') (hf : s.fsm = .mapemit) : AgreeLive s.emitRecord s'.emitRecord :=
  { h.enter_advance (by rw [hf]; rfl) with
    emitted := by simp [h.emitted, h.cfg, h.fb (by rw [hf]; rfl)]
    count := congrArg (· + 1) h.count }

theorem AgreeLive.extractNext (h : AgreeLive s s') (hf : s.fsm = .extract) :
    AgreeLive s.extractNext s'.extractNext := by
  have hm : s.fsm.hasMatch = true := by rw [hf]; rfl
  rw [State.extractNext, State.extractNext, ← h.cfg, ← h.row (Fsm.running_of_hasMatch hm), ← h.m hm]
  split
  · exact h.loadFrame _ hf
  · exact h.raise _ hm

/-- SUM8CHK judges the same frame. -/
theorem AgreeLive.checkSum (h : AgreeLive s s') (hf : s.fsm = .sum8chk) : AgreeLive s.checkSum s'.checkSum := by
  have hm : s.fsm.hasMatch = true := by rw [hf]; rfl
  have hfb : s.fsm.hasFrame = true := by rw [hf]; rfl
  have hacc : AgreeLive (s.setAcc (sum8 s.fb)) (s'.setAcc (sum8 s.fb)) := h.setAcc _
  rw [State.checkSum, State.checkSum, ← h.fb hfb]
  split
  · exact hacc.enter (fun _ => Fsm.running_of_hasMatch hm) (by decide) (fun _ => hm) (fun _ => hfb)
  · exact hacc.raise _ hm

/-- ADVANCE resumes the search past the same match. -/
theorem AgreeLive.advancePos (h : AgreeLive s s') (hf : s.fsm = .advance) : AgreeLive s.advancePos s'.advancePos :=
  { h with
    fsm := rfl
    rsel := fun _ => h.rsel (by rw [State.busy, hf]; rfl)
    pos := fun _ => by simp [h.cfg, h.m (by rw [hf]; rfl)]
    m := by simp [Fsm.hasMatch]
    fb := by simp [Fsm.hasFrame] }

theorem AgreeLive.decodeCandidate (b : RawFrame) (h : AgreeLive s s') (hf : s.fsm = .extract) :
    AgreeLive (s.decodeCandidate b) (s'.decodeCandidate b) := by
  have hsum : AgreeLive (s.loadFrame b).checkSum (s'.loadFrame b).checkSum := (h.loadFrame b hf).checkSum rfl
  rw [State.decodeCandidate, State.decodeCandidate]
  split
  · next hacc => exact hsum.emitRecord (by simp [State.checkSum, hacc])
  · exact hsum

/-! ### Steps -/

/-- The row provider's step where it is not refused. -/
theorem step_of_place {r : Nat} {bits : List Bool} {rest : List Stimulus} (hs : s.stimuli = .place r bits :: rest)
    (hd : s.disturbs r bits = false) : step s = .next (s.placeRow r bits).dropStimulus := by
  simp [step, hs, placeStep, hd]

/-- An operating step from two states that agree: at level F the same candidate, at level S the operation of the same
control state. -/
theorem AgreeLive.operate {t t' : State} (h : AgreeLive s s') (ho : s.operates = true) (hst : step s = .next t)
    (hst' : step s' = .next t') : AgreeLive t t' := by
  have ho' : s'.operates = true := h.operates ▸ ho
  rcases step_operates ho hst with ⟨ha, rfl⟩ | ⟨ha, rfl⟩ <;>
    rcases step_operates ho' hst' with ⟨ha', rfl⟩ | ⟨ha', rfl⟩ <;>
    rw [← h.atFrame, ha] at ha'
  · obtain ⟨-, hf, -⟩ := atFrame_iff.1 ha
    have hm : s.fsm.hasMatch = true := by rw [hf]; rfl
    rw [← h.row (Fsm.running_of_hasMatch hm), ← h.m hm]
    exact (h.decodeCandidate _ hf).dropStimulus
  · cases ha'
  · cases ha'
  · refine AgreeLive.dropStimulus ?_
    rw [← h.fsm, ← h.pins]
    cases hf : s.fsm with
    | idle | done =>
      dsimp only
      split
      · exact h.beginInvocation
      · exact h
    | locate => exact h.locateNext hf
    | spanchk => exact h.checkSpan hf
    | extract => exact h.extractNext hf
    | sum8chk => exact h.checkSum hf
    | mapemit => exact h.emitRecord hf
    | advance => exact h.advancePos hf

/-- Settles O56: a placed row and a reset act on both states alike, and so does an operation. -/
theorem valuelessRegistersAreNeverRead : Obligations.ValuelessRegistersAreNeverRead := by
  intro s s' t h hst
  rcases step_next hst with ⟨r, bits, rest, hs, hd, rfl⟩ | ⟨hr, rfl⟩ | ⟨ho, -⟩
  · exact ⟨_, step_of_place (h.stimuli ▸ hs) (h.disturbs r bits ▸ hd), (h.placeRow r bits).dropStimulus⟩
  · exact ⟨_, step_of_rst (h.pins ▸ hr), h.resetBlock.dropStimulus⟩
  · obtain ⟨-, hstep⟩ := everyOperationAnswersNext
    obtain ⟨t', hst'⟩ := hstep s' (h.operates ▸ ho)
    exact ⟨t', hst', h.operate ho hst hst'⟩

end Sys2Proof.Machine
end

section
/-! SUPPORT. The rows through every step, and after reset (R51, R52): the row provider alone writes them. -/

namespace Sys2Proof.Machine

variable {s t : State}

/-- A step leaves the rows as they are, unless it is the row provider's, which places one row. -/
theorem step_rows (h : step s = .next t) :
    (∃ r bits, t.rows = s.rows.setRow r (Row.ofBits bits)) ∨ t.rows = s.rows := by
  rcases step_next h with ⟨r, bits, _, -, -, rfl⟩ | ⟨-, rfl⟩ | ⟨-, _, _, u, -, hexec, rfl⟩
  · exact .inl ⟨r, bits, rfl⟩
  · exact .inr rfl
  · obtain ⟨-, -, hrows⟩ := exec_environment hexec
    exact .inr hrows

/-- Settles O32: a placed row is made of its bits, hence canonical, and no other step writes the rows. -/
theorem stepKeepsRowsCanonical : Obligations.StepKeepsRowsCanonical := by
  intro s t hwf hst
  rcases step_rows hst with ⟨r, bits, hrows⟩ | hrows <;> rw [hrows]
  · exact Memory.setRow_wf hwf (Row.ofBits_wf bits)
  · exact hwf

/-- Settles O33: the reset state's provider has no row. -/
theorem resetRowsCanonical : Obligations.ResetRowsCanonical := ⟨rfl, fun _ => rfl⟩

/-- What the row provider may place: any row between invocations, any other row inside one, or the same contents. -/
theorem disturbs_eq_false_iff {r : Nat} {bits : List Bool} :
    s.disturbs r bits = false ↔ s.busy = false ∨ r ≠ s.rsel ∨ lookupRow s.rows r = some (Row.ofBits bits) := by
  simp only [State.disturbs, Bool.and_eq_false_iff, beq_eq_false_iff_ne, decide_eq_false_iff_not, not_not, or_assoc]

/-- The row provider's step where it is refused. -/
theorem step_of_place_refused {r : Nat} {bits : List Bool} {rest : List Stimulus}
    (hs : s.stimuli = .place r bits :: rest) (hd : s.disturbs r bits = true) :
    step s = .refused (.rowChangedDuringInvocation r) := by
  simp [step, hs, placeStep, hd]

@[simp] theorem rowNamed_placeRow_same (s : State) (r : Nat) (bits : List Bool) :
    (s.placeRow r bits).rowNamed r = Row.ofBits bits := by
  simp [State.rowNamed, lookupRow_setRow]

@[simp] theorem rowNamed_placeRow_of_ne (s : State) {r q : Nat} (bits : List Bool) (hq : q ≠ r) :
    (s.placeRow r bits).rowNamed q = s.rowNamed q := by
  simp [State.rowNamed, lookupRow_setRow, hq]

/-- Settles O14: a placed row reads as its bits and leaves every other row, so the running invocation's row changes in
no step that is not refused. -/
theorem rowPlacement : Obligations.RowPlacement := by
  intro s r bits rest hs
  refine ⟨fun hmay => ?_, fun hbusy hr hchange => step_of_place_refused hs ?_⟩
  · have hd : s.disturbs r bits = false := disturbs_eq_false_iff.2 hmay
    have hnamed : (s.placeRow r bits).dropStimulus.rowNamed r = Row.ofBits bits := rowNamed_placeRow_same s r bits
    refine ⟨_, step_of_place hs hd, ?_, ?_, fun i => ?_, fun q hq => ?_, fun hbusy => ?_⟩
    · simp [State.dropStimulus, State.placeRow, hs]
    · rw [hnamed, Row.ofBits_len]
    · rw [hnamed, rowBit_ofBits]
    · exact rowNamed_placeRow_of_ne s bits hq
    · exact State.placeRow_row hbusy hd
  · rw [← Bool.not_eq_false, disturbs_eq_false_iff]
    simp [hbusy, hr, hr ▸ hchange]

end Sys2Proof.Machine
end

section
/-! SUPPORT. Numbers read from a row (R54, R57, R125): long reads from short ones, and short ones from the provider's
bytes. -/

namespace Sys2Proof.Machine

variable {row : Row}

/-- A read of `a + b` bits is the read of the first `a`, followed by that of the last `b`. -/
theorem readBits_add (row : Row) (p a b : Nat) :
    readBits row p (a + b) = readBits row p a * 2 ^ b + readBits row (p + a) b := by
  induction b with
  | zero => simp [readBits]
  | succ b ih =>
    rw [← Nat.add_assoc, readBits, readBits, ih, Nat.add_assoc p a b, pow_succ]
    ring

/-- A read is determined by its bits. -/
theorem readBits_congr {row' : Row} {p p' w : Nat} (h : ∀ j, j < w → rowBit row (p + j) = rowBit row' (p' + j)) :
    readBits row p w = readBits row' p' w := by
  induction w with
  | zero => rfl
  | succ w ih => rw [readBits, readBits, ih fun j hj => h j (by omega), h w w.lt_succ_self]

/-- A read within the provider's byte `q` is a run of that byte's bits. -/
theorem readBits_of_byte (row : Row) (q : Nat) {r w : Nat} (h : r + w ≤ 8) :
    readBits row (8 * q + r) w = (byteAt row q).toNat / 2 ^ (8 - r - w) % 2 ^ w := by
  induction w with
  | zero => simp [readBits, Nat.mod_one]
  | succ w ih =>
    obtain ⟨k, hk⟩ : ∃ k, 8 - r - w = k + 1 := ⟨8 - r - w - 1, by omega⟩
    have hbit : rowBit row (8 * q + r + w) = (byteAt row q).toNat.testBit k := by
      have hdiv : (8 * q + r + w) / 8 = q := by omega
      have hmod : 7 - (8 * q + r + w) % 8 = k := by omega
      rw [rowBit, hdiv, hmod, BitVec.getLsbD]
    rw [readBits, ih (by omega), hbit, hk, show 8 - r - (w + 1) = k by omega, Nat.toNat_testBit, pow_succ' 2 w,
      Nat.mod_mul, pow_succ 2 k, Nat.div_div_eq_div_mul, Nat.add_comm]

/-- Eight bits at any bit index, from the one or two provider's bytes that hold them (R57). -/
theorem readBits_eight (row : Row) (p : Nat) :
    readBits row p 8 = if p % 8 = 0 then (byteAt row (p / 8)).toNat
      else (byteAt row (p / 8)).toNat * 2 ^ (p % 8) % 256 + (byteAt row (p / 8 + 1)).toNat / 2 ^ (8 - p % 8) := by
  obtain ⟨q, r, hr, rfl⟩ : ∃ q r, r < 8 ∧ p = 8 * q + r := ⟨p / 8, p % 8, by omega, by omega⟩
  have hdiv : (8 * q + r) / 8 = q := by omega
  have hmod : (8 * q + r) % 8 = r := by omega
  rw [hdiv, hmod]
  split_ifs with h0
  · subst h0
    rw [readBits_of_byte row q (by omega)]
    simpa using Nat.mod_eq_of_lt (byteAt row q).isLt
  · have hsplit : readBits row (8 * q + r) 8
        = readBits row (8 * q + r) (8 - r) * 2 ^ r + readBits row (8 * (q + 1) + 0) r := by
      rw [show 8 * (q + 1) + 0 = 8 * q + r + (8 - r) by omega, ← readBits_add, Nat.sub_add_cancel hr.le]
    have hpow : 2 ^ (8 - r) * 2 ^ r = 256 := by rw [← pow_add, Nat.sub_add_cancel hr.le]; rfl
    have hlow : (byteAt row (q + 1)).toNat / 2 ^ (8 - r) < 2 ^ r :=
      Nat.div_lt_of_lt_mul (hpow ▸ (byteAt row (q + 1)).isLt)
    rw [hsplit, readBits_of_byte row q (by omega), readBits_of_byte row (q + 1) (by omega), Nat.sub_self, pow_zero,
      Nat.div_one, ← Nat.mul_mod_mul_right, hpow, Nat.sub_zero, Nat.mod_eq_of_lt hlow]

/-! ### `MemRead` -/

theorem memRead_of_le {p n : Nat} (h : p + 8 * n ≤ row.len) :
    memRead row p n = some (BitVec.ofNat (8 * n) (readBits row p (8 * n))) := if_pos h

/-- `MemRead` is defined exactly within the row, and then is the number read there. -/
theorem memRead_eq_some {p n : Nat} {v : BitVec (8 * n)} :
    memRead row p n = some v ↔ p + 8 * n ≤ row.len ∧ v.toNat = readBits row p (8 * n) := by
  rw [memRead, Option.ite_none_right_eq_some, Option.some.injEq, BitVec.toNat_eq, BitVec.toNat_ofNat,
    Nat.mod_eq_of_lt (readBits_lt _ _), eq_comm (b := v.toNat)]

/-- The bits of a defined `MemRead` are the row's, the first the most significant. -/
theorem memRead_getLsbD {p n : Nat} {v : BitVec (8 * n)} (h : memRead row p n = some v) {j : Nat} (hj : j < 8 * n) :
    v.getLsbD (8 * n - 1 - j) = rowBit row (p + j) := by
  obtain ⟨-, hv⟩ := memRead_eq_some.1 h
  rw [BitVec.getLsbD, hv, readBits_testBit p hj]

/-- Settles O28: every read is its bits, and a read's bits split as its width does. -/
theorem memReadLaws : Obligations.MemReadLaws := by
  intro row p n hn
  refine ⟨fun hle => ?_, fun hlt => if_neg (by omega)⟩
  have hv := memRead_of_le hle
  refine ⟨_, hv, fun j hj => memRead_getLsbD hv hj, fun k hk => ?_, fun _ => ?_⟩
  · have hbyte : memRead row (p + 8 * k) 1 = _ := memRead_of_le (by omega)
    refine ⟨_, hbyte, fun j hj => ?_⟩
    rw [memRead_getLsbD hv (by omega), ← Nat.add_assoc]
    exact memRead_getLsbD hbyte hj
  · have hhi : memRead row p 1 = _ := memRead_of_le (by omega)
    have hlo : memRead row (p + 8) (n - 1) = _ := memRead_of_le (by omega)
    refine ⟨_, _, hhi, hlo, ?_⟩
    rw [(memRead_eq_some.1 hv).2, (memRead_eq_some.1 hhi).2, (memRead_eq_some.1 hlo).2, ← readBits_add]
    congr 1
    omega

/-- Settles O29: the number of the eight bits from `p`, read from the provider's bytes. -/
theorem byteReadAcrossProviderBytes : Obligations.ByteReadAcrossProviderBytes := by
  intro row p h
  rw [← readBits_eight]
  exact memRead_of_le h

end Sys2Proof.Machine
end

section
/-! SUPPORT. Fields and frames as reads of the row (R55, R70, R122, R145). -/

namespace Sys2Proof.Machine

variable {row : Row}

theorem rowByte_toNat (row : Row) (p : Nat) : (rowByte row p).toNat = readBits row p 8 :=
  Nat.mod_eq_of_lt (readBits_lt p 8)

theorem memRead_one {p : Nat} (h : p + 8 ≤ row.len) : memRead row p 1 = some (rowByte row p) := memRead_of_le h

/-- A read of one byte more has that byte appended below (R54). -/
theorem memRead_succ {p n : Nat} {v : BitVec (8 * n)} (h : p + 8 * (n + 1) ≤ row.len)
    (hv : memRead row p n = some v) : memRead row p (n + 1) = some (v ++ rowByte row (p + 8 * n)) := by
  obtain ⟨-, hval⟩ := memRead_eq_some.1 hv
  refine memRead_eq_some.2 ⟨h, ?_⟩
  calc (v ++ rowByte row (p + 8 * n)).toNat
      = v.toNat * 256 + (rowByte row (p + 8 * n)).toNat := toNat_append_byte v _
    _ = readBits row p (8 * n) * 2 ^ 8 + readBits row (p + 8 * n) 8 := by rw [hval, rowByte_toNat]; rfl
    _ = readBits row p (8 * (n + 1)) := (readBits_add row p (8 * n) 8).symm

theorem memRead_two {p : Nat} (h : p + 16 ≤ row.len) :
    memRead row p 2 = some (rowByte row p ++ rowByte row (p + 8)) :=
  memRead_succ h (memRead_one (by omega))

theorem memRead_three {p : Nat} (h : p + 24 ≤ row.len) :
    memRead row p 3 = some (rowByte row p ++ rowByte row (p + 8) ++ rowByte row (p + 16)) :=
  memRead_succ h (memRead_two (by omega))

/-- Settles O30: the frame's bytes are the row's, and a field appends bytes that follow each other there. -/
theorem fieldsAreReadsOfTheRow : Obligations.FieldsAreReadsOfTheRow := by
  intro row fs b hb
  obtain ⟨hend, rfl⟩ := extractFrame_eq_some.1 hb
  refine ⟨memRead_three (by omega), memRead_two (by omega), ?_⟩
  have h3 : memRead row fs 3 = _ := memRead_three (by omega)
  have h5 : memRead row fs 5 = _ := memRead_succ (by omega) (memRead_succ (by omega) h3)
  exact memRead_succ (by omega) (memRead_succ (by omega) (memRead_succ (by omega) h5))

/-- Settles O8: the preamble that `atFrame` asks for is the first three bytes, and the frame is what EXTRACT finds. -/
theorem fetchedFrameIsTheMatchedRegion : Obligations.FetchedFrameIsTheMatchedRegion := by
  intro s h
  obtain ⟨-, -, -, hend, hpre⟩ := atFrame_iff.1 h
  rw [State.rowLen] at hend
  have hframe : extractFrame s.row (s.m + 24) = some _ := extractFrame_eq_some.2 ⟨by omega, rfl⟩
  obtain ⟨hident, hpressure, -⟩ := fieldsAreReadsOfTheRow _ _ _ hframe
  refine ⟨_, _, _, _, _, fetch_frame h, ?_, hident, hpressure, memRead_one (by omega), memRead_one (by omega),
    memRead_one (by omega)⟩
  simp only [regionBytes, preambleBytes, List.take_succ_cons, List.take_zero, List.cons.injEq, and_true] at hpre
  obtain ⟨h0, h1, h2⟩ := hpre
  rw [memRead_three (by omega), h0, h1, h2]
  rfl

end Sys2Proof.Machine
end

section
/-! SUPPORT. The bounds discipline (R65): rows of one length that agree on every bit of the row read alike. -/

namespace Sys2Proof.Machine

/-- Two rows of one length that agree on every bit below it. -/
structure RowsAgree (row row' : Row) : Prop where
  len : row.len = row'.len
  bits : ∀ i, i < row.len → rowBit row i = rowBit row' i

variable {row row' : Row}

theorem rowByte_congr (h : RowsAgree row row') {p : Nat} (hp : p + 8 ≤ row.len) : rowByte row p = rowByte row' p := by
  rw [rowByte, rowByte, readBits_congr fun j hj => h.bits (p + j) (by omega)]

theorem occursAt_iff {c : Cfg} {i : Nat} :
    occursAt c row i = true
      ↔ i + c.patternLen ≤ row.len ∧ ∀ k, k < c.patternLen → rowBit row (i + k) = patternBit c k := by
  simp only [occursAt, Bool.and_eq_true, decide_eq_true_eq, List.all_eq_true, List.mem_range, beq_iff_eq]

/-- An occurrence reads no bit past the row, since it must lie in it (R91). -/
theorem occursAt_congr (h : RowsAgree row row') (c : Cfg) (i : Nat) : occursAt c row i = occursAt c row' i := by
  rw [Bool.eq_iff_iff, occursAt_iff, occursAt_iff, ← h.len]
  refine and_congr_right fun hi => forall₂_congr fun k hk => ?_
  rw [h.bits (i + k) (by omega)]

theorem locateFrom_congr (h : RowsAgree row row') (c : Cfg) (n i : Nat) :
    locateFrom c row n i = locateFrom c row' n i := by
  induction n generalizing i with
  | zero => rfl
  | succ n ih => rw [locateFrom, locateFrom, occursAt_congr h, ih]

theorem locate_congr (h : RowsAgree row row') (c : Cfg) (start : Nat) : locate c row start = locate c row' start := by
  rw [locate, locate, ← h.len, locateFrom_congr h]

/-- Extraction reads its 64 bits only where they all are in the row (R122). -/
theorem extractFrame_congr (h : RowsAgree row row') (fs : Nat) : extractFrame row fs = extractFrame row' fs := by
  rw [extractFrame, extractFrame, ← h.len]
  split_ifs with hfs
  · rw [frameBytesAt, frameBytesAt]
    congr 2 <;> exact rowByte_congr h (by omega)
  · rfl

theorem spanOk_congr (h : RowsAgree row row') (c : Cfg) (m : Nat) : spanOk c row m = spanOk c row' m := by
  rw [spanOk, spanOk, h.len]

theorem candidateRecords_congr (h : RowsAgree row row') (c : Cfg) (m : Nat) :
    candidateRecords c row m = candidateRecords c row' m := by
  rw [candidateRecords, candidateRecords, decodeFrame, decodeFrame, extractFrame_congr h]

/-- Every iteration searches, checks and decodes alike, whatever the bound on their number. -/
theorem scanFrom_congr (h : RowsAgree row row') (c : Cfg) (n pos : Nat) :
    scanFrom c row n pos = scanFrom c row' n pos := by
  induction n generalizing pos with
  | zero => rfl
  | succ n ih =>
    rw [scanFrom, scanFrom, locate_congr h]
    cases locate c row' pos with
    | none => rfl
    | some m => simp only [spanOk_congr h, candidateRecords_congr h, ih]

/-- Settles O31: the search, the frames and the scan's loop read bits of the row only. -/
theorem nothingBeyondTheRowIsRead : Obligations.NothingBeyondTheRowIsRead := by
  intro c row row' hlen hbits
  have h : RowsAgree row row' := ⟨hlen, hbits⟩
  refine ⟨locate_congr h c, extractFrame_congr h, ?_⟩
  rw [scan, scan, scanAt, scanAt, ← h.len, scanFrom_congr h]

end Sys2Proof.Machine
end

section
/-! SUPPORT. Decoding and encoding against each other (R70, R73, R77, R84): every instruction is a selector's operation
or a frame's, and each of the two has its own bytes. -/

namespace Sys2Proof

/-- The TPMS_FRAME whose fields are those of the frame bytes `b` (R73). -/
def RawFrame.instr (b : RawFrame) : Instr :=
  .tpmsFrame (b.b0 ++ b.b1 ++ b.b2) (b.b3 ++ b.b4) b.b5 b.b6 b.b7

theorem instr_ofFields (ident : BitVec 24) (pressure : BitVec 16) (tempRaw status checksum : Byte) :
    (RawFrame.ofFields ident pressure tempRaw status checksum).instr
      = .tpmsFrame ident pressure tempRaw status checksum := by
  obtain ⟨hident, hpressure⟩ := fields_of_ofFields ident pressure tempRaw status checksum
  rw [RawFrame.instr, hident, hpressure]
  rfl

theorem encode_instr (b : RawFrame) : encode b.instr = preambleBytes ++ b.bytes := by
  rw [RawFrame.instr, encode, ofFields_of_bytes]

theorem encode_decodeSelector (sel : BitVec 4) : encode (decodeSelector sel) = [selectorByte sel] := by
  revert sel
  decide

/-- Every instruction is the operation of a selector or the decoding of a frame. -/
theorem Instr.selector_or_frame (i : Instr) :
    (∃ sel, i = decodeSelector sel) ∨ ∃ b : RawFrame, i = b.instr := by
  cases i with
  | tpmsFrame => exact .inr ⟨_, (instr_ofFields _ _ _ _ _).symm⟩
  | waitIdle => exact .inl ⟨0x0#4, rfl⟩
  | waitDone => exact .inl ⟨0x7#4, rfl⟩
  | startIdle => exact .inl ⟨0x8#4, rfl⟩
  | startDone => exact .inl ⟨0xF#4, rfl⟩
  | locate start => exact .inl ⟨BitVec.ofBool start ++ 1#3, by cases start <;> rfl⟩
  | spanchk start => exact .inl ⟨BitVec.ofBool start ++ 2#3, by cases start <;> rfl⟩
  | extract start => exact .inl ⟨BitVec.ofBool start ++ 3#3, by cases start <;> rfl⟩
  | sum8chk start => exact .inl ⟨BitVec.ofBool start ++ 4#3, by cases start <;> rfl⟩
  | mapemit start => exact .inl ⟨BitVec.ofBool start ++ 5#3, by cases start <;> rfl⟩
  | advance start => exact .inl ⟨BitVec.ofBool start ++ 6#3, by cases start <;> rfl⟩

theorem selectorByte_toNat (sel : BitVec 4) : (selectorByte sel).toNat = sel.toNat := by
  rw [selectorByte, BitVec.toNat_append]
  simp

theorem extractLsb'_selectorByte (sel : BitVec 4) : (selectorByte sel).extractLsb' 0 4 = sel := by
  apply BitVec.eq_of_toNat_eq
  rw [BitVec.extractLsb'_toNat, selectorByte_toNat, Nat.shiftRight_zero, Nat.mod_eq_of_lt sel.isLt]

theorem selectorByte_of_lt {b : Byte} (h : b.toNat < 16) : selectorByte (b.extractLsb' 0 4) = b := by
  apply BitVec.eq_of_toNat_eq
  rw [selectorByte_toNat, BitVec.extractLsb'_toNat, Nat.shiftRight_zero, Nat.mod_eq_of_lt h]

theorem decode_selectorByte_append (sel : BitVec 4) (rest : List Byte) :
    decode ([selectorByte sel] ++ rest) = .ok (decodeSelector sel, rest) := by
  have hlt : (selectorByte sel).toNat < 16 := selectorByte_toNat sel ▸ sel.isLt
  rw [List.singleton_append, decode, if_pos hlt, extractLsb'_selectorByte]

theorem decode_region_append (b : RawFrame) (rest : List Byte) :
    decode (preambleBytes ++ b.bytes ++ rest) = .ok (b.instr, rest) := rfl

/-- What the decoder accepts after a first preamble byte is the rest of a region (R70). -/
theorem decodeRegion_eq_ok {bytes rest : List Byte} {i : Instr} (h : decodeRegion bytes = .ok (i, rest)) :
    ∃ b : RawFrame, i = b.instr ∧ 0x7F#8 :: bytes = preambleBytes ++ b.bytes ++ rest := by
  rw [decodeRegion.eq_def] at h
  split at h
  · next p1 p2 b0 b1 b2 b3 b4 b5 b6 b7 tail =>
    split_ifs at h with hp
    obtain ⟨rfl, rfl⟩ := hp
    cases h
    exact ⟨⟨b0, b1, b2, b3, b4, b5, b6, b7⟩, rfl, rfl⟩
  · cases h

/-- The two forms the decoder accepts: a selector's byte, and a region. -/
theorem decode_eq_ok {bytes rest : List Byte} {i : Instr} (h : decode bytes = .ok (i, rest)) :
    (∃ sel, i = decodeSelector sel ∧ bytes = [selectorByte sel] ++ rest)
      ∨ ∃ b : RawFrame, i = b.instr ∧ bytes = preambleBytes ++ b.bytes ++ rest := by
  cases bytes with
  | nil => cases h
  | cons first tail =>
    rw [decode] at h
    split_ifs at h with hsel hpre
    · cases h
      exact .inl ⟨_, rfl, by rw [selectorByte_of_lt hsel, List.singleton_append]⟩
    · subst hpre
      exact .inr (decodeRegion_eq_ok h)

/-- Settles O5: a selector's byte and a region each decode to what they are the bytes of. -/
theorem decodeOfEncode : Obligations.DecodeOfEncode := by
  intro i rest
  rcases i.selector_or_frame with ⟨sel, rfl⟩ | ⟨b, rfl⟩
  · rw [encode_decodeSelector, decode_selectorByte_append]
  · rw [encode_instr, decode_region_append]

/-- Settles O6: the decoder accepts two forms of bytes, and each is the encoding of its instruction. -/
theorem acceptedBytesAreAnEncoding : Obligations.AcceptedBytesAreAnEncoding := by
  intro bytes i rest h
  rcases decode_eq_ok h with ⟨sel, rfl, rfl⟩ | ⟨b, rfl, rfl⟩
  · rw [encode_decodeSelector]
  · rw [encode_instr]

theorem decodeTableWord_of_decode {nbits w : Nat} {bytes : List Byte} {i : Instr}
    (hw : tableWordBytes nbits w = some bytes) (hd : decode bytes = .ok (i, [])) :
    decodeTableWord nbits w = some i := by
  simp [decodeTableWord, hw, hd]

/-- A table word of a selector is the selector's value (R84). -/
theorem decodeTableWord_selector (sel : BitVec 4) : decodeTableWord 8 sel.toNat = some (decodeSelector sel) := by
  refine decodeTableWord_of_decode (bytes := [selectorByte sel]) ?_ (decode_selectorByte sel)
  have hlt : sel.toNat < 16 := sel.isLt
  rw [← selectorByte_toNat, tableWordBytes, if_pos (by decide), if_pos (selectorByte sel).isLt, BitVec.ofNat_toNat,
    BitVec.setWidth_eq]

/-- Settles O7: each selector word is a selector's value, and the region word's bytes are the preamble and a frame. -/
theorem wordsOfTheSpecDecode : Obligations.WordsOfTheSpecDecode := by
  refine ⟨decodeTableWord_selector 0b0000#4, decodeTableWord_selector 0b0111#4, decodeTableWord_selector 0b1000#4,
    decodeTableWord_selector 0b1111#4, decodeTableWord_selector 0b0001#4, decodeTableWord_selector 0b1010#4,
    decodeTableWord_selector 0b0011#4, decodeTableWord_selector 0b1100#4, decodeTableWord_selector 0b0101#4,
    decodeTableWord_selector 0b1110#4, ?_⟩
  exact decodeTableWord_of_decode rfl (decode_region (b := ⟨0x00, 0x11, 0x22, 0x33, 0x44, 0x64, 0x00, 0x0E⟩) rfl)

end Sys2Proof
end

section
/-! SUPPORT. The selector and the step it selects (R75, R76, R77). -/

namespace Sys2Proof.Machine

theorem Fsm.ofCode_code (f : Fsm) : Fsm.ofCode f.code = f := by cases f <;> rfl

theorem Fsm.code_ofCode (c : BitVec 3) : (Fsm.ofCode c).code = c := by
  revert c
  decide

theorem errCode_ne_three (e : Option ErrKind) : errCode e ≠ 3#2 := by
  rcases e with - | - | - <;> decide

/-- Settles O3: the two tables of codes, and that each code of R75 is one state's. -/
theorem codesOfStatesAndErrors : Obligations.CodesOfStatesAndErrors :=
  ⟨rfl, rfl, rfl, rfl, rfl, rfl, rfl, rfl, Fsm.ofCode_code, Fsm.code_ofCode, rfl, rfl, rfl, errCode_ne_three⟩

/-- At level S the block fetches its selector. -/
theorem fetch_of_level_S {s : State} (hl : s.pins.level = .S) : s.fetch = [selectorByte s.sel] := by
  have hF : s.atFrame = false := by simp [State.atFrame, hl]
  simp [State.fetch, hF]

/-- Settles O9: an operating step runs what it fetches, and dropping the stimulus writes that field alone. -/
theorem stepRunsTheDecodedInstruction : Obligations.StepRunsTheDecodedInstruction := by
  intro s i rest ho hd
  obtain ⟨t, he⟩ := exec_answers_next i s
  rw [step_of_operates ho, runFetched_of_exec hd he, he]
  rfl

/-- Each selector value stands in one row of the table, which names its operation (R77, R84). -/
theorem selectorTable_selects_one (sel : BitVec 4) :
    (selectorTable.filter (·.selects sel)).map (·.mnemonic) = [(decodeSelector sel).mnemonic] := by
  revert sel
  decide

/-- Settles O4: the tables by their sixteen values, and the step by O9 from the selector fetched at level S. -/
theorem selectorSelectsOneOperation : Obligations.SelectorSelectsOneOperation := by
  refine ⟨fun start f => by cases start <;> cases f <;> rfl, selectorTable_selects_one, fun s ho hl => ?_⟩
  exact stepRunsTheDecodedInstruction s _ [] ho (fetch_of_level_S hl ▸ decode_selectorByte s.sel)

end Sys2Proof.Machine
end

section
/-! SUPPORT. The verdict on a frame decoded in one step (R78, R120, R132). -/

namespace Sys2Proof.Machine

variable (ident : BitVec 24) (pressure : BitVec 16) (tempRaw status checksum : Byte)

theorem accepted_iff {b : RawFrame} : accepted b = true ↔ sum8 b = b.b7 := by simp [accepted]

/-- A frame instruction is well-formed exactly when its frame is accepted (R78, R132). -/
theorem wellFormed_tpmsFrame :
    (Instr.tpmsFrame ident pressure tempRaw status checksum).wellFormed
      = accepted (RawFrame.ofFields ident pressure tempRaw status checksum) := by
  rw [Bool.eq_iff_iff, accepted_iff, ← BitVec.toNat_inj, sum8, BitVec.toNat_ofNat]
  exact beq_iff_eq

theorem fieldId_ofFields :
    fieldId (RawFrame.ofFields ident pressure tempRaw status checksum) = ident :=
  (fields_of_ofFields ident pressure tempRaw status checksum).1

theorem fieldPressure_ofFields :
    fieldPressure (RawFrame.ofFields ident pressure tempRaw status checksum) = pressure :=
  (fields_of_ofFields ident pressure tempRaw status checksum).2

/-- RAW is the fields in the order of the region (R70, R145). -/
theorem fieldRaw_eq_fields (b : RawFrame) :
    fieldRaw b = fieldId b ++ fieldPressure b ++ b.b5 ++ b.b6 ++ b.b7 := by
  rw [fieldRaw, fieldId, fieldPressure, BitVec.append_assoc' (x₁ := b.b0 ++ b.b1 ++ b.b2)]
  rfl

/-- Settles O23: the frame is well-formed where it is accepted, and the one step has the two outcomes. -/
theorem frameIsAcceptedOrRejected : Obligations.FrameIsAcceptedOrRejected := by
  intro s ident pressure tempRaw status checksum b
  rw [wellFormed_tpmsFrame, exec, execTpmsFrame]
  rcases s.decodeCandidate_cases b with ⟨hacc, hu⟩ | ⟨hacc, hu⟩ <;> rw [hacc, hu]
  · have hsum : sum8 b = checksum := accepted_iff.1 hacc
    refine ⟨fun _ => ⟨mapFields s.cfg b, ?_, fieldId_ofFields .., rfl, fieldPressure_ofFields .., rfl, ?_,
      rfl, rfl, rfl⟩, by simp⟩
    · rw [hsum]
      rfl
    · refine (fieldRaw_eq_fields b).trans ?_
      rw [fieldId_ofFields, fieldPressure_ofFields]
      rfl
  · exact ⟨by simp, fun _ => rfl⟩

end Sys2Proof.Machine
end

section
/-! SUPPORT. The default pattern against itself (R72), and that a scan which cannot step over an occurrence tries every
one (R94). -/

namespace Sys2Proof.Machine

variable {c : Cfg} {row : Row}

theorem patternBit_default : ∀ k, k < 24 → patternBit Cfg.default k = decide (1 ≤ k ∧ k ≤ 15) := by decide

/-- The row under an occurrence of the default pattern: one 0, fifteen 1, eight 0. -/
theorem rowBit_of_occursAt_default {i k : Nat} (h : occursAt Cfg.default row i = true) (hk : k < 24) :
    rowBit row (i + k) = decide (1 ≤ k ∧ k ≤ 15) :=
  ((occursAt_iff.1 h).2 k hk).trans (patternBit_default k hk)

/-- Two occurrences of the default pattern cannot start `d` bits apart with `0 < d < 23`: up to 15 the second one's
first 0 would fall on a 1 of the first, and from 16 on its first 1 on a 0. -/
theorem occursAt_default_apart {i j : Nat} (hi : occursAt Cfg.default row i = true)
    (hj : occursAt Cfg.default row j = true) (hij : i < j) : i + 23 ≤ j := by
  by_contra hlt
  obtain ⟨d, rfl⟩ : ∃ d, j = i + d := ⟨j - i, by omega⟩
  have agree (k : Nat) (hk : d + k < 24) : decide (1 ≤ d + k ∧ d + k ≤ 15) = decide (1 ≤ k ∧ k ≤ 15) := by
    rw [← rowBit_of_occursAt_default hi hk, ← rowBit_of_occursAt_default hj (by omega), Nat.add_assoc]
  rcases Nat.lt_or_ge d 16 with hd | hd
  · have h0 := decide_eq_decide.1 (agree 0 (by omega))
    omega
  · have h1 := decide_eq_decide.1 (agree 1 (by omega))
    omega

/-- A row of 47 bits with two occurrences that share the bit 23. -/
def overlapRow : Row := ⟨47, [(0, 0x7F#8), (1, 0xFF#8), (3, 0xFF#8), (4, 0xFE#8)]⟩

theorem occursAt_overlapRow :
    occursAt Cfg.default overlapRow 0 = true ∧ occursAt Cfg.default overlapRow 23 = true := by decide

/-- Settles O36: the pattern's 24 bits, its distance from itself, and a row at that distance. -/
theorem defaultPatternOverlapsItselfOnlyBy23 : Obligations.DefaultPatternOverlapsItselfOnlyBy23 :=
  ⟨patternBit_default, fun _ _ _ => occursAt_default_apart, overlapRow, occursAt_overlapRow⟩

/-- Where an occurrence lies ahead, the search answers it or an earlier one. -/
theorem locate_le_of_occursAt {pos m : Nat} (hm : occursAt c row m = true) (hp : pos ≤ m) :
    ∃ k, locate c row pos = some k ∧ pos ≤ k ∧ k ≤ m := by
  have hlen := occursAt_le hm
  cases hl : locate c row pos with
  | none =>
    rw [locate, locateFrom_eq_none] at hl
    simp [hl m hp (by omega)] at hm
  | some k =>
    obtain ⟨hk, -, -, hfirst⟩ := locateFrom_eq_some.1 hl
    refine ⟨k, rfl, hk, not_lt.1 fun hmk => ?_⟩
    simp [hfirst m hp hmk] at hm

/-- Where SCAN_STEP does not exceed the distance of any two occurrences, the loop tries every occurrence ahead of its
scan start that passes the span check: it stops before none, and steps over none. -/
theorem mem_candidatesFrom_of_occursAt (hs : 1 ≤ c.scanStep)
    (apart : ∀ i j, occursAt c row i = true → occursAt c row j = true → i < j → i + c.scanStep ≤ j)
    {n pos m : Nat} (hm : occursAt c row m = true) (hspan : spanOk c row m = true) (hp : pos ≤ m) (hn : m < pos + n) :
    m ∈ candidatesFrom c row n pos := by
  induction n generalizing pos with
  | zero => omega
  | succ n ih =>
    obtain ⟨k, hl, hk, hkm⟩ := locate_le_of_occursAt hm hp
    rcases candidatesFrom_cases c row n pos with ⟨k', hl', -, heq⟩ | ⟨hno, -⟩
    · obtain rfl : k = k' := Option.some.inj (hl.symm.trans hl')
      rw [heq]
      rcases Nat.lt_or_eq_of_le hkm with hlt | rfl
      · exact List.mem_cons_of_mem _ (ih (apart k m (locate_occursAt hl) hm hlt) (by omega))
      · exact List.mem_cons_self
    · have hspan' : spanOk c row k = true := by rw [spanOk_iff] at hspan ⊢; omega
      simp [hno k hl] at hspan'

/-- Settles O38: the default SCAN_STEP of 2 is below the distance of 23 between two occurrences. -/
theorem defaultScanTriesEveryOccurrence : Obligations.DefaultScanTriesEveryOccurrence := by
  intro row m hm hlen
  have apart (i j : Nat) (hi : occursAt Cfg.default row i = true) (hj : occursAt Cfg.default row j = true)
      (hij : i < j) : i + 2 ≤ j := by
    have := occursAt_default_apart hi hj hij
    omega
  exact mem_candidatesFrom_of_occursAt (by decide) apart hm (spanOk_iff.2 hlen) (Nat.zero_le m) (by omega)

end Sys2Proof.Machine
end

section
/-! SUPPORT. The hexadecimal and binary texts as the digits of their values, and the rendered record (R74, R150). -/

namespace Sys2Proof.Machine

theorem idxOf_hexDigit : ∀ d, d < 16 → hexAlphabet.idxOf (hexDigit d) = d := by decide

theorem hexDigit_mem : ∀ d, d < 16 → hexDigit d ∈ hexAlphabet := by decide

@[simp] theorem hexDigits_length (v n : Nat) : (hexDigits v n).length = n := by
  induction n with
  | zero => rfl
  | succ n ih => rw [hexDigits, List.length_cons, ih]

theorem mem_hexAlphabet_of_mem_hexDigits {v n : Nat} {ch : Char} (h : ch ∈ hexDigits v n) : ch ∈ hexAlphabet := by
  induction n with
  | zero => simp [hexDigits] at h
  | succ n ih =>
    rw [hexDigits, List.mem_cons] at h
    rcases h with rfl | h
    · exact hexDigit_mem _ (Nat.mod_lt _ (by decide))
    · exact ih h

/-- Reading `n` hexadecimal digits after the number `a` gives `a` and the low `n` digits of the value. -/
theorem foldl_hexDigits (v n a : Nat) :
    (hexDigits v n).foldl (fun n ch => 16 * n + hexAlphabet.idxOf ch) a = a * 16 ^ n + v % 16 ^ n := by
  induction n generalizing a with
  | zero => simp [hexDigits, Nat.mod_one]
  | succ n ih =>
    rw [hexDigits, List.foldl_cons, ih, idxOf_hexDigit _ (Nat.mod_lt _ (by decide)), pow_succ, Nat.mod_mul]
    ring

/-- The `n` digits of a value of at most `n` digits read back as the value. -/
theorem foldl_hexDigits_of_lt {v n : Nat} (h : v < 16 ^ n) :
    (hexDigits v n).foldl (fun n ch => 16 * n + hexAlphabet.idxOf ch) 0 = v := by
  rw [foldl_hexDigits, Nat.zero_mul, Nat.zero_add, Nat.mod_eq_of_lt h]

@[simp] theorem binDigits_length (v n : Nat) : (binDigits v n).length = n := by
  induction n with
  | zero => rfl
  | succ n ih => rw [binDigits, List.length_cons, ih]

theorem binDigits_getElem? (v : Nat) {n k : Nat} (hk : k < n) :
    (binDigits v n)[k]? = some (if v.testBit (n - 1 - k) then '1' else '0') := by
  induction n generalizing k with
  | zero => omega
  | succ n ih =>
    cases k with
    | zero => rfl
    | succ k =>
      have hbit : n + 1 - 1 - (k + 1) = n - 1 - k := by omega
      rw [binDigits, List.getElem?_cons_succ, ih (by omega), hbit]

/-- Bit `7 - k` of the status byte is digit `k` after the `0b`. -/
theorem renderStatus_getElem? (v : Byte) {k : Nat} (hk : k < 8) :
    (renderStatus v)[k + 2]? = some (if v.getLsbD (7 - k) then '1' else '0') :=
  binDigits_getElem? v.toNat hk

theorem render_keys (r : DecodedRecord) :
    r.render.map (·.1) = ["model", "type", "id", "status", "pressure", "temperature", "raw", "mic"] := rfl

theorem render_texts (r : DecodedRecord) :
    r.render.map (·.2.toList) = [r.model.toList, r.typeTag.toList, renderId r.ident, renderStatus r.status,
      renderPressure r.pressure, renderTemperature r.temperature, renderRaw r.raw, r.mic.toList] := by
  simp only [DecodedRecord.render, List.map_cons, List.map_nil, String.toList_ofList]

theorem render_tags (r : DecodedRecord) :
    r.render.filter (fun kv => kv.1 == "type" || kv.1 == "mic") = [("type", r.typeTag), ("mic", r.mic)] := rfl

/-- Settles O49: the digits of 24, 64 and 8 bits, and the record's keys and texts. -/
theorem renderingsAreTheDigits : Obligations.RenderingsAreTheDigits := by
  refine ⟨
    fun v => ⟨hexDigits_length _ _, foldl_hexDigits_of_lt v.isLt, fun _ => mem_hexAlphabet_of_mem_hexDigits⟩,
    fun v => ⟨hexDigits_length _ _, foldl_hexDigits_of_lt v.isLt, fun _ => mem_hexAlphabet_of_mem_hexDigits⟩,
    fun v => ⟨rfl, by simp [renderStatus], fun _ => renderStatus_getElem? v⟩,
    fun r => ⟨render_keys r, render_texts r⟩, fun b => render_tags _⟩

end Sys2Proof.Machine
end

section
/-! SUPPORT. The search as its specification, the first occurrence at or after the start (R90, R91, R95); LOCATE, which
performs it (R92); and a scan whose first search finds nothing (R100). -/

namespace Sys2Proof.Machine

variable {c : Cfg} {row : Row} {start : Nat}

/-- No occurrence: the pattern does not fit in the row, or a bit differs. -/
theorem occursAt_eq_false_iff {i : Nat} :
    occursAt c row i = false
      ↔ (i + c.patternLen ≤ row.len → ∃ k, k < c.patternLen ∧ rowBit row (i + k) ≠ patternBit c k) := by
  simp only [← Bool.not_eq_true, occursAt_iff, not_and, not_forall, exists_prop, ne_eq]

/-- Settles O34: by the definition bit by bit; a short row has no room for the pattern. -/
theorem occurrenceMatchesEveryBit : Obligations.OccurrenceMatchesEveryBit :=
  fun _ _ _ => ⟨occursAt_iff, fun hshort => occursAt_eq_false_iff.2 fun hfit => by omega⟩

/-- The bound on the positions examined leaves out no occurrence: past it the pattern does not fit (R93). -/
theorem locate_eq_some {i : Nat} :
    locate c row start = some i
      ↔ start ≤ i ∧ occursAt c row i = true ∧ ∀ j, start ≤ j → j < i → occursAt c row j = false := by
  rw [locate, locateFrom_eq_some]
  constructor
  · rintro ⟨hi, -, hrest⟩
    exact ⟨hi, hrest⟩
  · rintro ⟨hi, hocc, hfirst⟩
    have hfit := occursAt_le hocc
    exact ⟨hi, by omega, hocc, hfirst⟩

theorem locate_eq_none : locate c row start = none ↔ ∀ j, start ≤ j → occursAt c row j = false := by
  rw [locate, locateFrom_eq_none]
  constructor
  · intro hnone j hj
    refine Bool.eq_false_iff.2 fun hocc => ?_
    have hfit := occursAt_le hocc
    simp [hnone j hj (by omega)] at hocc
  · exact fun hnone j hj _ => hnone j hj

/-- R95 (c). -/
theorem locate_of_later {later i : Nat} (hs : start ≤ later) (hl : locate c row start = some i) (hi : later ≤ i) :
    locate c row later = some i := by
  obtain ⟨-, hocc, hfirst⟩ := locate_eq_some.1 hl
  exact locate_eq_some.2 ⟨hi, hocc, fun j hj => hfirst j (hs.trans hj)⟩

/-- R95 (d). -/
theorem locate_none_of_later {later : Nat} (hs : start ≤ later) (hl : locate c row start = none) :
    locate c row later = none :=
  locate_eq_none.2 fun j hj => locate_eq_none.1 hl j (hs.trans hj)

/-- An occurrence at or after `start` reads bits from `start` on only. -/
theorem occursAt_congr_from {row' : Row} (hlen : row'.len = row.len)
    (hbits : ∀ i, start ≤ i → i < row.len → rowBit row' i = rowBit row i) {j : Nat} (hj : start ≤ j) :
    occursAt c row' j = occursAt c row j := by
  rw [Bool.eq_iff_iff, occursAt_iff, occursAt_iff, hlen]
  refine and_congr_right fun hfit => forall₂_congr fun k hk => ?_
  rw [hbits (j + k) (by omega) (by omega)]

/-- R95 (e). -/
theorem locate_congr_from {row' : Row} (hlen : row'.len = row.len)
    (hbits : ∀ i, start ≤ i → i < row.len → rowBit row' i = rowBit row i) :
    locate c row' start = locate c row start := by
  have same {j : Nat} (hj : start ≤ j) : occursAt c row' j = occursAt c row j := occursAt_congr_from hlen hbits hj
  cases hl : locate c row start with
  | none => exact locate_eq_none.2 fun j hj => (same hj).trans (locate_eq_none.1 hl j hj)
  | some i =>
    obtain ⟨hi, hocc, hfirst⟩ := locate_eq_some.1 hl
    exact locate_eq_some.2 ⟨hi, (same hi).trans hocc, fun j hj hji => (same hj).trans (hfirst j hj hji)⟩

/-- Settles O35: the two outcomes of the search, and the laws that follow from them. -/
theorem locateLaws : Obligations.LocateLaws := fun _ _ _ =>
  ⟨fun _ => locate_eq_some, locate_eq_none, fun _ _ => locate_of_later, fun _ => locate_none_of_later,
    fun _ => locate_congr_from⟩

theorem exec_locate_of_some {s : State} {i : Nat} (b : Bool) (hl : locate s.cfg s.row s.pos = some i) :
    exec (.locate b) s = .next (s.found i) := by
  rw [exec, execLocate, State.locateNext, hl]

theorem exec_locate_of_none {s : State} (b : Bool) (hl : locate s.cfg s.row s.pos = none) :
    exec (.locate b) s = .next (s.enter .done) := by
  rw [exec, execLocate, State.locateNext, hl]

/-- Settles O17: LOCATE writes what the search answers, and the premises give the search's answer bit by bit. -/
theorem locateFindsTheNextOccurrence : Obligations.LocateFindsTheNextOccurrence := by
  intro s b
  refine ⟨fun i hi hfit hbits hfirst => exec_locate_of_some b (locate_eq_some.2 ⟨hi, ?_, fun j hj hji => ?_⟩),
    fun hnone => exec_locate_of_none b (locate_eq_none.2 fun j hj => ?_), fun hf => ?_⟩
  · exact occursAt_iff.2 ⟨hfit, hbits⟩
  · exact occursAt_eq_false_iff.2 fun _ => hfirst j hj hji
  · exact occursAt_eq_false_iff.2 (hnone j hj)
  · rw [State.sel, hf]
    exact selectorSelectsOneOperation.1 s.pins.start .locate

/-- A search that finds nothing ends the loop at once (R100). -/
theorem scanAt_of_locate_none (hl : locate c row start = none) : scanAt c row start = [] := by
  rw [scanAt, scanFrom, hl]

theorem candidatesAt_of_locate_none (hl : locate c row start = none) : candidatesAt c row start = [] := by
  rw [candidatesAt, candidatesFrom, hl]

/-- Settles O43: the first search, from bit 0, finds nothing. -/
theorem noPreambleNoRecord : Obligations.NoPreambleNoRecord := by
  intro c row hno
  have hl : locate c row 0 = none := locate_eq_none.2 fun j _ => hno j
  exact ⟨scanAt_of_locate_none hl, candidatesAt_of_locate_none hl⟩

end Sys2Proof.Machine
end

section
/-! SUPPORT. What one iteration of the loop takes from the scan (R100): the next candidate's share, and nothing where it
ends. -/

namespace Sys2Proof.Machine

variable {c : Cfg} {row : Row} {pos m : Nat}

/-- Where the next occurrence passes the span check, the loop handles it and goes on SCAN_STEP past it. -/
theorem scanAt_of_candidate (hs : 1 ≤ c.scanStep) (hl : locate c row pos = some m) (hspan : spanOk c row m = true) :
    scanAt c row pos = candidateRecords c row m ++ scanAt c row (m + c.scanStep) := by
  simp [scanAt_eq hs pos, hl, hspan]

theorem candidatesAt_of_candidate (hs : 1 ≤ c.scanStep) (hl : locate c row pos = some m)
    (hspan : spanOk c row m = true) : candidatesAt c row pos = m :: candidatesAt c row (m + c.scanStep) := by
  simp [candidatesAt_eq hs pos, hl, hspan]

theorem truncatedAt_of_candidate (hs : 1 ≤ c.scanStep) (hl : locate c row pos = some m)
    (hspan : spanOk c row m = true) : truncatedAt c row pos = truncatedAt c row (m + c.scanStep) := by
  simp [truncatedAt_eq hs pos, hl, hspan]

/-- A next occurrence that fails the span check ends the loop. -/
theorem scanAt_of_not_span (hl : locate c row pos = some m) (hspan : spanOk c row m = false) :
    scanAt c row pos = [] := by
  simp [scanAt, scanFrom, hl, hspan]

theorem candidatesAt_of_not_span (hl : locate c row pos = some m) (hspan : spanOk c row m = false) :
    candidatesAt c row pos = [] := by
  simp [candidatesAt, candidatesFrom, hl, hspan]

theorem truncatedAt_of_not_span (hl : locate c row pos = some m) (hspan : spanOk c row m = false) :
    truncatedAt c row pos = true := by
  simp [truncatedAt, truncatedFrom, hl, hspan]

theorem truncatedAt_of_locate_none (hl : locate c row pos = none) : truncatedAt c row pos = false := by
  simp [truncatedAt, truncatedFrom, hl]

/-- A candidate's share of the scan is one record if it decodes, and a rejection if not. -/
theorem candidate_of_ok {r : DecodedRecord} (h : decodeFrame c row (frameStart c m) = .ok r) :
    candidateRecords c row m = [r] ∧ rejects c row m = false := by
  simp [candidateRecords, rejects, h]

theorem candidate_of_error {k : ErrKind} (h : decodeFrame c row (frameStart c m) = .error k) :
    candidateRecords c row m = [] ∧ rejects c row m = true := by
  simp [candidateRecords, rejects, h]

theorem decodeFrame_of_none {fs : Nat} (h : extractFrame row fs = none) :
    decodeFrame c row fs = .error .insufficientBits := by
  simp [decodeFrame, h]

theorem decodeFrame_of_accepted {fs : Nat} {b : RawFrame} (h : extractFrame row fs = some b) (hb : accepted b = true) :
    decodeFrame c row fs = .ok (mapFields c b) := by
  simp [decodeFrame, h, hb]

theorem decodeFrame_of_not_accepted {fs : Nat} {b : RawFrame} (h : extractFrame row fs = some b)
    (hb : accepted b = false) : decodeFrame c row fs = .error .checksumMismatch := by
  simp [decodeFrame, h, hb]

end Sys2Proof.Machine
end

section
/-! SUPPORT. The agreement of a running invocation with the scan, through each write of a step (R113). -/

namespace Sys2Proof.Machine

variable {s : State} {pos : Nat}

/-- R113's agreement at a scan start, whatever the control state: what the invocation has emitted, rejected and matched,
with what the scan still gives from `pos`, is what the whole scan gives. -/
structure ScanProgress (s : State) (pos : Nat) : Prop where
  records : s.invocationRecords ++ scanAt s.cfg s.row pos = scan s.cfg s.row
  counted : s.invocationRecords.length = s.count
  rejected : (s.fRej || (candidatesAt s.cfg s.row pos).any (rejects s.cfg s.row))
    = (candidates s.cfg s.row).any (rejects s.cfg s.row)
  matched : (s.fMatch || (locate s.cfg s.row pos).isSome) = (locate s.cfg s.row 0).isSome
  notTruncated : s.fTrunc = false
  truncated : truncatedAt s.cfg s.row pos = scanTruncated s.cfg s.row

theorem ScanInv.progress (h : ScanInv s) (hb : s.busy = true) : ScanProgress s s.resume where
  records := h.records hb
  counted := h.counted hb
  rejected := h.rejected hb
  matched := h.matched hb
  notTruncated := (h.truncated hb).1
  truncated := (h.truncated hb).2

/-- The invariant is its candidate's part, the agreement from where the scan resumes, and the flag of a match. -/
theorem ScanInv.of_progress (hc : CandidateInv s) (hp : s.busy = true → ScanProgress s s.resume)
    (hm : s.fsm.hasMatch = true → s.fMatch = true) : ScanInv s where
  candidate := hc
  records hb := (hp hb).records
  counted hb := (hp hb).counted
  rejected hb := (hp hb).rejected
  flagged := hm
  matched hb := (hp hb).matched
  truncated hb := ⟨(hp hb).notTruncated, (hp hb).truncated⟩

/-- Between invocations the invariant asks nothing. -/
theorem ScanInv.of_not_busy (h : s.busy = false) : ScanInv s :=
  have hm : s.fsm.hasMatch = false :=
    Bool.eq_false_iff.2 fun hm => by simp [State.busy, Fsm.running_of_hasMatch hm] at h
  .of_progress (.of_not_hasMatch hm) (by simp [h]) (by simp [hm])

/-- The scan resumes at `pos` until the candidate is over. -/
theorem State.resume_of_ne_advance (h : s.fsm ≠ .advance) : s.resume = s.pos := by
  cases hf : s.fsm <;> simp_all [State.resume]

theorem ScanInv.progress_pos (h : ScanInv s) (hb : s.busy = true) (hf : s.fsm ≠ .advance) : ScanProgress s s.pos :=
  State.resume_of_ne_advance hf ▸ h.progress hb

theorem ScanInv.dropStimulus (h : ScanInv s) : ScanInv s.dropStimulus :=
  { h with candidate := h.candidate.dropStimulus }

/-- While an invocation is running, a row that may be placed is not its row. -/
theorem ScanInv.placeRow {r : Nat} {bits : List Bool} (h : ScanInv s) (hd : s.disturbs r bits = false) :
    ScanInv (s.placeRow r bits) := by
  cases hb : s.busy with
  | false => exact .of_not_busy hb
  | true =>
    have hrow : (s.placeRow r bits).row = s.row := State.placeRow_row hb hd
    obtain ⟨hrec, hcount, hrej, hmatch, hgo, htrunc⟩ := h.progress hb
    refine .of_progress (h.candidate.placeRow hd) (fun _ => ⟨?_, hcount, ?_, ?_, hgo, ?_⟩) h.flagged <;> rw [hrow]
    · exact hrec
    · exact hrej
    · exact hmatch
    · exact htrunc

/-- START has everything still to come. -/
theorem ScanInv.beginInvocation (s : State) : ScanInv s.beginInvocation := by
  have hrec : s.beginInvocation.invocationRecords = [] := List.drop_length
  refine .of_progress (.of_not_hasMatch rfl) (fun _ => ⟨?_, ?_, rfl, rfl, rfl, rfl⟩) (by simp [Fsm.hasMatch])
  · rw [hrec]; rfl
  · rw [hrec]; rfl

/-- LOCATE's match is the scan's: with it the row has an occurrence. -/
theorem ScanInv.found {i : Nat} (h : ScanInv s) (hf : s.fsm = .locate) (hi : locate s.cfg s.row s.pos = some i) :
    ScanInv (s.found i) := by
  have hp : ScanProgress s s.pos := h.progress_pos (by rw [State.busy, hf]; rfl) (by simp [hf])
  have hmatch : (locate s.cfg s.row 0).isSome = true := by rw [← hp.matched, hi]; exact Bool.or_true _
  exact .of_progress (.found_of_locate hi) (fun _ => { hp with matched := hmatch.symm }) fun _ => rfl

/-- A candidate that is not over goes from one of its states to another with the scan where it was. -/
theorem ScanInv.enter_match {f : Fsm} (h : ScanInv s) (hm : s.fsm.hasMatch = true) (hs : s.fsm ≠ .advance)
    (ha : f ≠ .advance) (hc : CandidateInv (s.enter f)) : ScanInv (s.enter f) := by
  have hp : ScanProgress s s.pos := h.progress_pos (Fsm.running_of_hasMatch hm) hs
  refine .of_progress hc (fun _ => ?_) fun _ => h.flagged hm
  rw [State.resume_of_ne_advance ha]
  exact { hp with }

theorem ScanInv.loadFrame {b : RawFrame} (h : ScanInv s) (hf : s.fsm = .extract)
    (hb : extractFrame s.row (frameStart s.cfg s.m) = some b) : ScanInv (s.loadFrame b) :=
  have hp : ScanProgress s s.pos := h.progress_pos (by rw [State.busy, hf]; rfl) (by simp [hf])
  .of_progress (h.candidate.loadFrame hf hb) (fun _ => { hp with }) fun _ => h.flagged (by rw [hf]; rfl)

theorem ScanInv.setAcc (v : Byte) (h : ScanInv s) : ScanInv (s.setAcc v) :=
  { h with candidate := h.candidate.setAcc v }

theorem ScanInv.accept (v : Byte) (h : ScanInv s) (hf : s.fsm = .sum8chk) (hacc : accepted s.fb = true) :
    ScanInv ((s.setAcc v).enter .mapemit) :=
  (h.setAcc v).enter_match (by rw [State.setAcc_fsm, hf]; rfl) (by simp [hf]) (by simp) (h.candidate.accept v hf hacc)

/-- A record handed over is the last of the invocation's. -/
theorem invocationRecords_emitRecord (s : State) :
    s.emitRecord.invocationRecords = s.invocationRecords ++ [mapFields s.cfg s.fb] := by
  simp only [State.invocationRecords, State.emitRecord_emitted, State.emitRecord_count, List.length_append,
    List.length_singleton, Nat.add_sub_add_right]
  exact List.drop_append_of_le_length (Nat.sub_le _ _)

/-- A rejected candidate is over: it gave the scan no record, and set the flag (R113). -/
theorem ScanInv.raise {k : ErrKind} (h : ScanInv s) (hs : 1 ≤ s.cfg.scanStep) (hp : s.fsm.pastSpan = true)
    (ha : s.fsm ≠ .advance) (hk : decodeFrame s.cfg s.row (frameStart s.cfg s.m) = .error k) :
    ScanInv (s.raise k) := by
  have hm : s.fsm.hasMatch = true := Fsm.hasMatch_of_pastSpan hp
  have hl : locate s.cfg s.row s.pos = some s.m := h.candidate.found hm
  have hspan : spanOk s.cfg s.row s.m = true := h.candidate.span hp
  obtain ⟨hrec, hcount, hrej, hmatch, hgo, htrunc⟩ := h.progress_pos (Fsm.running_of_hasMatch hm) ha
  obtain ⟨hnone, hrejects⟩ := candidate_of_error hk
  rw [scanAt_of_candidate hs hl hspan, hnone] at hrec
  rw [candidatesAt_of_candidate hs hl hspan, List.any_cons, hrejects, Bool.true_or, Bool.or_true] at hrej
  rw [hl, Option.isSome_some, Bool.or_true] at hmatch
  rw [truncatedAt_of_candidate hs hl hspan] at htrunc
  refine .of_progress (h.candidate.raise k hp) (fun _ => ⟨hrec, hcount, hrej, ?_, hgo, htrunc⟩) fun _ => h.flagged hm
  rw [State.raise_fMatch, h.flagged hm]
  exact hmatch

/-- An emitted candidate is over: its record was the scan's next (R113). -/
theorem ScanInv.emitRecord (h : ScanInv s) (hs : 1 ≤ s.cfg.scanStep) (hf : s.fsm = .mapemit) :
    ScanInv s.emitRecord := by
  have hm : s.fsm.hasMatch = true := by rw [hf]; rfl
  have hl : locate s.cfg s.row s.pos = some s.m := h.candidate.found hm
  have hspan : spanOk s.cfg s.row s.m = true := h.candidate.span (by rw [hf]; rfl)
  obtain ⟨hrec, hcount, hrej, hmatch, hgo, htrunc⟩ :=
    h.progress_pos (Fsm.running_of_hasMatch hm) (by simp [hf])
  obtain ⟨hone, hrejects⟩ := candidate_of_ok (c := s.cfg)
    (decodeFrame_of_accepted (h.candidate.frame (by rw [hf]; rfl)) (h.candidate.valid hf))
  rw [scanAt_of_candidate hs hl hspan, hone, ← List.append_assoc, ← invocationRecords_emitRecord] at hrec
  rw [candidatesAt_of_candidate hs hl hspan, List.any_cons, hrejects, Bool.false_or] at hrej
  rw [hl, Option.isSome_some, Bool.or_true] at hmatch
  rw [truncatedAt_of_candidate hs hl hspan] at htrunc
  refine .of_progress (h.candidate.emitRecord hf) (fun _ => ⟨hrec, ?_, hrej, ?_, hgo, htrunc⟩) fun _ => h.flagged hm
  · rw [invocationRecords_emitRecord, List.length_append, hcount]
    rfl
  · rw [State.emitRecord_fMatch, h.flagged hm]
    exact hmatch

/-- ADVANCE moves `pos` to where the scan resumes. -/
theorem ScanInv.advancePos (h : ScanInv s) (hf : s.fsm = .advance) : ScanInv s.advancePos := by
  have hp : ScanProgress s s.resume := h.progress (by rw [State.busy, hf]; rfl)
  have hresume : s.resume = s.m + s.cfg.scanStep := by rw [State.resume, hf]
  rw [hresume] at hp
  exact .of_progress (.of_not_hasMatch rfl) (fun _ => { hp with }) (by simp [Fsm.hasMatch])

theorem ScanInv.reject (v : Byte) (h : ScanInv s) (hs : 1 ≤ s.cfg.scanStep) (hf : s.fsm = .sum8chk)
    (hacc : accepted s.fb = false) : ScanInv ((s.setAcc v).raise .checksumMismatch) :=
  (h.setAcc v).raise hs (by rw [State.setAcc_fsm, hf]; rfl) (by simp [hf])
    (decodeFrame_of_not_accepted (h.candidate.frame (by rw [hf]; rfl)) hacc)

/-- The one step of level F is a frame loaded, then accepted and emitted, or rejected. -/
theorem ScanInv.decodeCandidate {b : RawFrame} (h : ScanInv s) (hs : 1 ≤ s.cfg.scanStep) (hf : s.fsm = .extract)
    (hb : extractFrame s.row (frameStart s.cfg s.m) = some b) : ScanInv (s.decodeCandidate b) := by
  have hload : ScanInv (s.loadFrame b) := h.loadFrame hf hb
  rcases s.decodeCandidate_cases b with ⟨hacc, hu⟩ | ⟨hacc, hu⟩ <;> rw [hu]
  · exact (hload.accept _ rfl hacc).emitRecord hs rfl
  · exact hload.reject _ hs rfl hacc

theorem one_le_scanStep_of_wf {c : Cfg} (h : c.wf = true) : 1 ≤ c.scanStep := by
  simp only [Cfg.wf, Bool.and_eq_true, decide_eq_true_eq] at h
  exact h.1.2

theorem one_le_patternLen_of_wf {c : Cfg} (h : c.wf = true) : 1 ≤ c.patternLen := by
  simp only [Cfg.wf, Bool.and_eq_true, decide_eq_true_eq] at h
  exact h.1.1

/-- Settles O52: each write a step can make moves the candidate's share of the scan from what is to come to what has
been, or leaves both. -/
theorem stepKeepsTheScan : Obligations.StepKeepsTheScan := by
  intro s t hwf h hst
  have hs : 1 ≤ s.cfg.scanStep := one_le_scanStep_of_wf hwf
  rcases step_next hst with ⟨r, bits, rest, -, hd, rfl⟩ | ⟨-, rfl⟩ | ⟨ho, -⟩
  · exact (h.placeRow hd).dropStimulus
  · exact .of_idle rfl
  obtain ⟨u, rfl, hu⟩ := operate_cases ho hst
  refine ScanInv.dropStimulus ?_
  rcases hu with ⟨ha, rfl⟩ | ⟨-, hu⟩
  · obtain ⟨-, hf, -⟩ := atFrame_iff.1 ha
    exact h.decodeCandidate hs hf (extractFrame_of_atFrame ha)
  rcases hu with ⟨-, -, rfl⟩ | ⟨-, -, rfl⟩ | ⟨i, hf, hi, rfl⟩ | ⟨-, -, rfl⟩ | ⟨hf, hspan, rfl⟩ | ⟨-, -, rfl⟩ |
    ⟨b, hf, hb, rfl⟩ | ⟨hf, hb, rfl⟩ | ⟨hf, hacc, rfl⟩ | ⟨hf, hacc, rfl⟩ | ⟨hf, rfl⟩ | ⟨hf, rfl⟩
  · exact .beginInvocation s
  · exact h
  · exact h.found hf hi
  · exact .of_not_busy rfl
  · exact h.enter_match (by rw [hf]; rfl) (by simp [hf]) (by simp) (h.candidate.enter_extract hf hspan)
  · exact .of_not_busy rfl
  · exact h.loadFrame hf hb
  · exact h.raise hs (by rw [hf]; rfl) (by simp [hf]) (decodeFrame_of_none hb)
  · exact h.accept _ hf hacc
  · exact h.reject _ hs hf hacc
  · exact h.emitRecord hs hf
  · exact h.advancePos hf

end Sys2Proof.Machine
end

section
/-! SUPPORT. The transitions of `fsm` (R105, R106), and the operations of the protocol state machine (R101 to R104). -/

namespace Sys2Proof.Machine

variable {s t : State}

/-- The control state after the operation of level S (R106). -/
def State.nextFsm (s : State) : Fsm :=
  match s.fsm with
  | .idle => if s.pins.start then .locate else .idle
  | .locate => if (locate s.cfg s.row s.pos).isSome then .spanchk else .done
  | .spanchk => if s.m + s.cfg.tailAlign + s.cfg.minSpan ≤ s.rowLen then .extract else .done
  | .extract => if s.m + s.cfg.patternLen + 64 ≤ s.rowLen then .sum8chk else .advance
  | .sum8chk => if sum8 s.fb = s.fb.b7 then .mapemit else .advance
  | .mapemit => .advance
  | .advance => .locate
  | .done => if s.pins.start then .locate else .done

theorem locateNext_fsm (s : State) :
    s.locateNext.fsm = if (locate s.cfg s.row s.pos).isSome then .spanchk else .done := by
  rcases s.locateNext_cases with ⟨i, hi, hu⟩ | ⟨hnone, hu⟩
  · simp [hi, hu]
  · simp [hnone, hu]

theorem checkSpan_fsm (s : State) :
    s.checkSpan.fsm = if s.m + s.cfg.tailAlign + s.cfg.minSpan ≤ s.rowLen then .extract else .done := by
  rw [State.checkSpan, State.rowLen, apply_ite State.fsm]
  exact if_congr spanOk_iff rfl rfl

theorem extractNext_fsm (s : State) :
    s.extractNext.fsm = if s.m + s.cfg.patternLen + 64 ≤ s.rowLen then .sum8chk else .advance := by
  rcases s.extractNext_cases with ⟨b, hb, hu⟩ | ⟨hnone, hu⟩ <;> rw [hu]
  · exact (if_pos (extractFrame_eq_some.1 hb).1).symm
  · exact (if_neg (not_le.2 (extractFrame_eq_none.1 hnone))).symm

theorem checkSum_fsm (s : State) : s.checkSum.fsm = if sum8 s.fb = s.fb.b7 then .mapemit else .advance := by
  rw [State.checkSum, apply_ite State.fsm]
  exact if_congr accepted_iff rfl rfl

/-- A step of level S makes the transition of its control state. -/
theorem step_fsm (ho : s.operates = true) (hl : s.pins.level = .S) (h : step s = .next t) : t.fsm = s.nextFsm := by
  rcases step_operates ho h with ⟨ha, -⟩ | ⟨-, rfl⟩
  · obtain ⟨hF, -⟩ := atFrame_iff.1 ha
    simp [hl] at hF
  rw [State.dropStimulus_fsm, State.nextFsm]
  cases hf : s.fsm with
  | locate => exact locateNext_fsm s
  | spanchk => exact checkSpan_fsm s
  | extract => exact extractNext_fsm s
  | sum8chk => exact checkSum_fsm s
  | mapemit | advance => rfl
  | idle | done => cases s.pins.start <;> simp [hf]

/-- Settles O11: line by line from the one table of next control states. -/
theorem transitionTable : Obligations.TransitionTable := by
  refine ⟨fun s p rest hs hr => ⟨_, step_of_rst (by simpa [State.pins, hs] using hr), rfl⟩, fun s ho hl => ?_⟩
  obtain ⟨-, hstep⟩ := everyOperationAnswersNext
  obtain ⟨t, hst⟩ := hstep s ho
  refine ⟨t, hst, ?_⟩
  rw [step_fsm ho hl hst, State.nextFsm]
  cases s.fsm <;> simp +contextual

/-- The two ways into DONE (R105), with what they write. -/
theorem step_enters_done (h : step s = .next t) (ht : t.fsm = .done) (hs : s.fsm ≠ .done) :
    (s.fsm = .locate ∧ locate s.cfg s.row s.pos = none ∧ t = (s.enter .done).dropStimulus)
      ∨ (s.fsm = .spanchk ∧ spanOk s.cfg s.row s.m = false ∧ t = s.truncate.dropStimulus) := by
  rcases step_next h with ⟨r, bits, rest, -, -, rfl⟩ | ⟨-, rfl⟩ | ⟨ho, -⟩
  · exact absurd ht hs
  · cases ht
  obtain ⟨u, rfl, hu⟩ := operate_cases ho h
  rcases hu with ⟨-, rfl⟩ | ⟨-, hu⟩
  · rcases s.decodeCandidate_cases (frameBytesAt s.row (s.m + 24)) with ⟨-, hu⟩ | ⟨-, hu⟩ <;>
      rw [hu] at ht <;> cases ht
  rcases hu with ⟨-, -, rfl⟩ | ⟨-, -, rfl⟩ | ⟨i, -, -, rfl⟩ | ⟨hf, hnone, rfl⟩ | ⟨-, -, rfl⟩ | ⟨hf, hspan, rfl⟩ |
    ⟨b, -, -, rfl⟩ | ⟨-, -, rfl⟩ | ⟨-, -, rfl⟩ | ⟨-, -, rfl⟩ | ⟨-, rfl⟩ | ⟨-, rfl⟩
  · cases ht
  · exact absurd ht hs
  · cases ht
  · exact .inl ⟨hf, hnone, rfl⟩
  · cases ht
  · exact .inr ⟨hf, hspan, rfl⟩
  · cases ht
  · cases ht
  · cases ht
  · cases ht
  · cases ht
  · cases ht

/-- Between invocations what is fetched is the selector of WAIT or START. -/
theorem decode_fetch_at_rest (hf : s.fsm = .idle ∨ s.fsm = .done) :
    decode s.fetch = .ok (decodeSelector s.sel, []) := by
  have hF : s.atFrame = false := Bool.eq_false_iff.2 fun ha => by
    obtain ⟨-, he, -⟩ := atFrame_iff.1 ha
    simp [he] at hf
  rw [State.fetch, if_neg (by simp [hF]), decode_selectorByte]

/-- The selector selects the operation of the control state (R77). -/
theorem decodeSelector_sel (s : State) :
    decodeSelector s.sel = (match s.fsm with
      | .idle => if s.pins.start then .startIdle else .waitIdle
      | .locate => .locate s.pins.start
      | .spanchk => .spanchk s.pins.start
      | .extract => .extract s.pins.start
      | .sum8chk => .sum8chk s.pins.start
      | .mapemit => .mapemit s.pins.start
      | .advance => .advance s.pins.start
      | .done => if s.pins.start then .startDone else .waitDone) :=
  selectorSelectsOneOperation.1 s.pins.start s.fsm

/-- In IDLE and DONE a step without `start` waits. -/
theorem step_wait (ho : s.operates = true) (hf : s.fsm = .idle ∨ s.fsm = .done) (hstart : s.pins.start = false) :
    step s = .next s.dropStimulus := by
  rw [step_of_operates ho]
  refine runFetched_of_exec (decode_fetch_at_rest hf) ?_
  rcases hf with hf | hf <;> simp [decodeSelector_sel, hf, hstart, exec, execWaitIdle, execWaitDone]

/-- In IDLE and DONE a step with `start` begins an invocation. -/
theorem step_start (ho : s.operates = true) (hf : s.fsm = .idle ∨ s.fsm = .done) (hstart : s.pins.start = true) :
    step s = .next s.beginInvocation.dropStimulus := by
  rw [step_of_operates ho]
  refine runFetched_of_exec (decode_fetch_at_rest hf) ?_
  rcases hf with hf | hf <;> simp [decodeSelector_sel, hf, hstart, exec, execStartIdle, execStartDone]

/-- Settles O15: at rest without `start` the selector is that of WAIT, which writes nothing. -/
theorem waitChangesNothing : Obligations.WaitChangesNothing := by
  refine ⟨fun s => ⟨rfl, rfl⟩, fun s ho hstart hf => ⟨step_wait ho hf hstart, fun hf => ?_, fun hf => ?_⟩⟩
  · simp [decodeSelector_sel, hf, hstart]
  · simp [decodeSelector_sel, hf, hstart]

/-- What a step in DONE does: a placed row, a reset, START, or WAIT. -/
theorem step_in_done (h : step s = .next t) (hf : s.fsm = .done) :
    (∃ r bits, t = (s.placeRow r bits).dropStimulus)
      ∨ (s.pins.rst = true ∧ t = s.resetBlock.dropStimulus)
      ∨ (s.pins.start = true ∧ t = s.beginInvocation.dropStimulus)
      ∨ t = s.dropStimulus := by
  rcases step_next h with ⟨r, bits, rest, -, -, rfl⟩ | ⟨hr, rfl⟩ | ⟨ho, -⟩
  · exact .inl ⟨r, bits, rfl⟩
  · exact .inr (.inl ⟨hr, rfl⟩)
  cases hstart : s.pins.start
  · rw [step_wait ho (.inr hf) hstart] at h
    cases h
    exact .inr (.inr (.inr rfl))
  · rw [step_start ho (.inr hf) hstart] at h
    cases h
    exact .inr (.inr (.inl ⟨rfl, rfl⟩))

/-- Settles O12: from the ways into DONE and the steps taken in it. -/
theorem doneIsTheEndOfARun : Obligations.DoneIsTheEndOfARun := by
  intro s t h
  refine ⟨fun ht hs => ?_, fun hf => ⟨by simp [State.isDone, hf], by rw [State.busy, hf]; rfl,
    by simp [State.recValid, hf], ?_⟩⟩
  · rcases step_enters_done h ht hs with ⟨hf, hnone, -⟩ | ⟨hf, hspan, -⟩
    · exact .inl ⟨hf, hnone⟩
    · exact .inr ⟨hf, not_le.1 fun hle => by simp [spanOk_iff.2 hle] at hspan⟩
  · rcases step_in_done h hf with ⟨r, bits, rfl⟩ | ⟨hr, rfl⟩ | ⟨hstart, rfl⟩ | rfl
    · exact .inl ⟨hf, rfl, rfl, rfl, rfl, rfl, rfl⟩
    · exact .inr (.inr ⟨hr, rfl⟩)
    · exact .inr (.inl ⟨hstart, rfl⟩)
    · exact .inl ⟨hf, rfl, rfl, rfl, rfl, rfl, rfl⟩

/-- Settles O16: both rows of START perform `beginInvocation`. -/
theorem startBeginsAnInvocation : Obligations.StartBeginsAnInvocation := by
  refine fun s => ⟨s.beginInvocation, rfl, rfl, rfl, fun hstart hf => ?_, fun hstart hf => ?_⟩
  · simp [decodeSelector_sel, hf, hstart]
  · simp [decodeSelector_sel, hf, hstart]

/-- Settles O22: the writes of `advancePos`, with the default SCAN_STEP put in. -/
theorem advanceMovesPastTheMatch : Obligations.AdvanceMovesPastTheMatch := by
  refine fun s start => ⟨rfl, fun hc => ?_, fun hf => by rw [decodeSelector_sel, hf]⟩
  have hstep : s.cfg.scanStep = 2 := by rw [hc]; rfl
  rw [exec, execAdvance, State.advancePos, hstep]

/-- Settles O18: the two outcomes of the check; and 23 + 89 bits counted from `m` are 89 counted from `m + 23`. -/
theorem spanCheck : Obligations.SpanCheck := by
  refine ⟨fun s start => ⟨fun hle => ?_, fun hlt => ?_, fun hf => by rw [decodeSelector_sel, hf]⟩, fun row m _ => ?_⟩
  · rw [exec, execSpanchk, State.checkSpan, if_pos (spanOk_iff.2 hle)]
    rfl
  · rw [exec, execSpanchk, State.checkSpan, if_neg (mt spanOk_iff.1 (not_le.2 hlt))]
    rfl
  · have hspan : spanOk Cfg.default row m = true ↔ m + 23 + 89 ≤ row.len := spanOk_iff
    rw [hspan]
    omega

end Sys2Proof.Machine
end

section
/-! SUPPORT. The scan and its candidates: their records (R100, R107), the loop that skips (R110), and their number
(R111). -/

namespace Sys2Proof.Machine

variable {c : Cfg} {row : Row}

theorem scanFrom_eq_flatMap (n pos : Nat) :
    scanFrom c row n pos = (candidatesFrom c row n pos).flatMap (candidateRecords c row) := by
  induction n generalizing pos with
  | zero => rfl
  | succ n ih =>
    rw [scanFrom]
    rcases candidatesFrom_cases c row n pos with ⟨m, hl, hspan, heq⟩ | ⟨hno, heq⟩ <;> rw [heq]
    · simp [hl, hspan, ih]
    · cases hl : locate c row pos with
      | none => rfl
      | some m => simp [hno m hl]

/-- Settles O39: iteration by iteration, each of which tries one candidate. -/
theorem scanIsTheRecordsOfItsCandidates : Obligations.ScanIsTheRecordsOfItsCandidates :=
  fun _ _ => scanFrom_eq_flatMap _ _

/-- From a scan start without the span, the loop that skips finds no more record: the span check is monotone (R110). -/
theorem skipScanFrom_eq_nil {n pos : Nat} (h : row.len < pos + c.tailAlign + c.minSpan) :
    skipScanFrom c row n pos = [] := by
  induction n generalizing pos with
  | zero => rfl
  | succ n ih =>
    rw [skipScanFrom]
    cases hl : locate c row pos with
    | none => rfl
    | some m =>
      have hm : pos ≤ m := (locate_bound hl).1
      have hspan : ¬ spanOk c row m = true := by rw [spanOk_iff]; omega
      simp [hspan, ih (pos := m + c.scanStep) (by omega)]

theorem scanFrom_eq_skipScanFrom (n pos : Nat) : scanFrom c row n pos = skipScanFrom c row n pos := by
  induction n generalizing pos with
  | zero => rfl
  | succ n ih =>
    rw [scanFrom, skipScanFrom]
    cases locate c row pos with
    | none => rfl
    | some m =>
      by_cases hspan : spanOk c row m = true
      · simp [hspan, ih]
      · have hm : row.len < m + c.tailAlign + c.minSpan := not_le.1 (mt spanOk_iff.2 hspan)
        simp [hspan, skipScanFrom_eq_nil (n := n) (pos := m + c.scanStep) (c := c) (row := row) (by omega)]

/-- Settles O40: what the loop that skips does after a failed span check gives no record. -/
theorem stoppingLosesNoRecord : Obligations.StoppingLosesNoRecord :=
  fun _ _ => scanFrom_eq_skipScanFrom _ _

theorem length_candidateRecords_le (m : Nat) : (candidateRecords c row m).length ≤ 1 := by
  rw [candidateRecords]
  cases decodeFrame c row (frameStart c m) <;> simp

/-- Each candidate gives at most one record (R111). -/
theorem scanCount_le_length_candidates (c : Cfg) (row : Row) : scanCount c row ≤ (candidates c row).length := by
  rw [scanCount, scanIsTheRecordsOfItsCandidates c row, List.length_flatMap]
  refine (List.sum_le_card_nsmul _ 1 ?_).trans (by simp)
  simp only [List.mem_map]
  rintro _ ⟨m, -, rfl⟩
  exact length_candidateRecords_le m

/-- Numbers up to `N`, each at least `d` past the one before: the first leaves room for the others. -/
theorem add_length_mul_le_of_spaced {d N a : Nat} {l : List Nat} (h : (a :: l).Pairwise (fun x y => x + d ≤ y))
    (hN : ∀ x ∈ a :: l, x ≤ N) : a + l.length * d ≤ N := by
  induction l generalizing a with
  | nil => simpa using hN a
  | cons b l ih =>
    obtain ⟨ha, hb⟩ := List.pairwise_cons.1 h
    have hab : a + d ≤ b := ha b List.mem_cons_self
    have hl : b + l.length * d ≤ N := ih hb fun x hx => hN x (List.mem_cons_of_mem a hx)
    rw [List.length_cons, Nat.succ_mul]
    omega

theorem length_le_of_spaced {d N : Nat} {l : List Nat} (hd : 1 ≤ d) (h : l.Pairwise (fun x y => x + d ≤ y))
    (hN : ∀ x ∈ l, x ≤ N) : l.length ≤ N / d + 1 := by
  cases l with
  | nil => simp
  | cons a l =>
    have hle : l.length * d ≤ N := (Nat.le_add_left _ a).trans (add_length_mul_le_of_spaced h hN)
    exact Nat.succ_le_succ ((Nat.le_div_iff_mul_le hd).2 hle)

theorem candidates_spaced (c : Cfg) (row : Row) : (candidates c row).Pairwise (fun a b => a + c.scanStep ≤ b) :=
  (candidatesIncrease c row).1

theorem candidates_occur {m : Nat} (h : m ∈ candidates c row) :
    occursAt c row m = true ∧ m + c.tailAlign + c.minSpan ≤ row.len :=
  (candidatesIncrease c row).2.1 m h

/-- A candidate has its pattern in the row, which is not empty, so that there are at most as many as bits (R111). -/
theorem length_candidates_le (hwf : c.wf = true) : (candidates c row).length ≤ row.len := by
  have hlt (m : Nat) (hm : m ∈ candidates c row) : m + 1 ≤ row.len :=
    (Nat.add_le_add_left (one_le_patternLen_of_wf hwf) m).trans (occursAt_le (candidates_occur hm).1)
  rcases Nat.eq_zero_or_pos row.len with h0 | hpos
  · have hnil : candidates c row = [] := List.eq_nil_iff_forall_not_mem.2 fun m hm => by have := hlt m hm; omega
    simp [hnil]
  · have hlen := length_le_of_spaced (one_le_scanStep_of_wf hwf) (candidates_spaced c row)
      (fun m hm => Nat.le_sub_one_of_lt (hlt m hm))
    have hdiv : (row.len - 1) / c.scanStep ≤ row.len - 1 := Nat.div_le_self _ _
    omega

/-- Candidates of the default pattern are 23 bits apart, as its occurrences are (R72). -/
theorem candidates_default_spaced (row : Row) : (candidates Cfg.default row).Pairwise (fun a b => a + 23 ≤ b) := by
  refine (candidates_spaced Cfg.default row).imp_of_mem fun {a b} ha hb hab => ?_
  have hlt : a + 2 ≤ b := hab
  exact occursAt_default_apart (candidates_occur ha).1 (candidates_occur hb).1 (by omega)

/-- Settles O41: the count is at most the number of candidates, whose distance and whose last place are known. -/
theorem countIsBounded : Obligations.CountIsBounded := by
  refine ⟨fun c row hwf => ?_, fun row hlen => ?_⟩
  · have hcount := scanCount_le_length_candidates c row
    have hlen : scanCount c row ≤ row.len := hcount.trans (length_candidates_le hwf)
    refine ⟨hcount, fun _ => ?_, fun hshort => ?_, hlen, fun hfit => lt_wCnt_of_fits hfit hlen⟩
    · refine length_le_of_spaced (one_le_scanStep_of_wf hwf) (candidates_spaced c row) fun m hm => ?_
      have hspan := (candidates_occur hm).2
      omega
    · have hnil : candidates c row = [] := List.eq_nil_iff_forall_not_mem.2 fun m hm => by
        have hspan := (candidates_occur hm).2
        omega
      simpa [hnil] using hcount
  · refine (scanCount_le_length_candidates _ row).trans
      (length_le_of_spaced (by decide) (candidates_default_spaced row) fun m hm => ?_)
    have hspan : m + 23 + 89 ≤ row.len := (candidates_occur hm).2
    omega

end Sys2Proof.Machine
end

section
/-! SUPPORT. The end of an invocation: at the last operation nothing of the scan is left (R105, R108, R113). -/

namespace Sys2Proof.Machine

variable {s t : State}

/-- Settles O58: whichever way the invocation ends, the rest of the scan is empty. -/
theorem endOfRunHoldsTheScan : Obligations.EndOfRunHoldsTheScan := by
  intro s t hwf h hb hst ht
  have hdone : s.fsm ≠ .done := fun hf => by simp [State.busy, hf, Fsm.running] at hb
  rcases step_enters_done hst ht hdone with ⟨hf, hl, rfl⟩ | ⟨hf, hspan, rfl⟩
  · obtain ⟨hrec, hcount, hrej, hmatch, hgo, htrunc⟩ := h.progress_pos hb (by simp [hf])
    rw [scanAt_of_locate_none hl, List.append_nil] at hrec
    rw [candidatesAt_of_locate_none hl, List.any_nil, Bool.or_false] at hrej
    rw [hl, Option.isSome_none, Bool.or_false] at hmatch
    rw [truncatedAt_of_locate_none hl] at htrunc
    exact ⟨hrec, hcount.symm.trans (congrArg List.length hrec), hmatch, hrej, hgo.trans htrunc⟩
  · obtain ⟨hrec, hcount, hrej, hmatch, hgo, htrunc⟩ := h.progress_pos hb (by simp [hf])
    have hl : locate s.cfg s.row s.pos = some s.m := h.candidate.found (by rw [hf]; rfl)
    rw [scanAt_of_not_span hl hspan, List.append_nil] at hrec
    rw [candidatesAt_of_not_span hl hspan, List.any_nil, Bool.or_false] at hrej
    rw [hl, Option.isSome_some, Bool.or_true, ← h.flagged (by rw [hf]; rfl)] at hmatch
    rw [truncatedAt_of_not_span hl hspan] at htrunc
    exact ⟨hrec, hcount.symm.trans (congrArg List.length hrec), hmatch, hrej, htrunc⟩

end Sys2Proof.Machine
end

section
/-! SUPPORT. A whole invocation: the variant that ends it (R109), and what it leaves behind (R113). -/

namespace Sys2Proof.Machine

variable {s t : State}

/-- Candidates that still fit from a scan start, SCAN_STEP apart: R109's variant divided by SCAN_STEP. -/
def iterationsLeft (c : Cfg) (row : Row) (pos : Nat) : Nat := (row.len + c.scanStep - pos) / c.scanStep

/-- A bound on the steps to DONE (R109): six operations for each candidate, and the last two. -/
def State.stepsLeft (s : State) : Nat :=
  let later := 6 * iterationsLeft s.cfg s.row (s.m + s.cfg.scanStep)
  match s.fsm with
  | .idle => 0
  | .locate => 6 * iterationsLeft s.cfg s.row s.pos + 2
  | .spanchk => later + 7
  | .extract => later + 6
  | .sum8chk => later + 5
  | .mapemit => later + 4
  | .advance => later + 3
  | .done => 0

/-- A match uses up an iteration. -/
theorem iterationsLeft_of_locate {c : Cfg} {row : Row} {pos m : Nat} (hs : 1 ≤ c.scanStep)
    (hl : locate c row pos = some m) : iterationsLeft c row (m + c.scanStep) + 1 ≤ iterationsLeft c row pos := by
  obtain ⟨hpos, hend⟩ := locate_bound hl
  rw [iterationsLeft, iterationsLeft, ← Nat.add_div_right _ hs]
  exact Nat.div_le_div_right (by omega)

/-- Stimuli that leave the invocation alone let the block operate. -/
theorem operates_of_undisturbed (h : s.undisturbed = true) : s.operates = true := by
  rw [State.undisturbed] at h
  rw [State.operates]
  cases hs : s.stimuli with
  | nil => rfl
  | cons x rest =>
    have hx : x.leavesAlone = true := List.all_eq_true.1 h x (by simp [hs])
    cases x with
    | pins p => exact hx
    | place r bits => cases hx

theorem undisturbed_dropStimulus (h : s.undisturbed = true) : s.dropStimulus.undisturbed = true :=
  List.all_eq_true.2 fun x hx => List.all_eq_true.1 h x (List.mem_of_mem_tail hx)

/-- The records of the invocations before this one. -/
def State.earlierRecords (s : State) : List DecodedRecord := s.emitted.take (s.emitted.length - s.count)

theorem earlierRecords_append_invocationRecords (s : State) :
    s.earlierRecords ++ s.invocationRecords = s.emitted :=
  List.take_append_drop _ _

theorem earlierRecords_emitRecord (s : State) : s.emitRecord.earlierRecords = s.earlierRecords := by
  simp only [State.earlierRecords, State.emitRecord_emitted, State.emitRecord_count, List.length_append,
    List.length_singleton, Nat.add_sub_add_right]
  exact List.take_append_of_le_length (Nat.sub_le _ _)

/-- What an operation of a running invocation keeps, and that it brings the end closer. -/
structure Advances (s t : State) : Prop where
  cfg : t.cfg = s.cfg
  stimuli : t.stimuli = s.stimuli.tail
  row : t.row = s.row
  earlier : t.earlierRecords = s.earlierRecords
  busy : t.fsm ≠ .done → t.busy = true
  closer : t.stepsLeft < s.stepsLeft

/-- The one step of level F ends its candidate. -/
theorem Advances.decodeCandidate (b : RawFrame) (hf : s.fsm = .extract) :
    Advances s (s.decodeCandidate b).dropStimulus := by
  rcases s.decodeCandidate_cases b with ⟨-, hu⟩ | ⟨-, hu⟩ <;> rw [hu]
  · exact ⟨rfl, rfl, rfl, earlierRecords_emitRecord _, fun _ => rfl, by simp [State.stepsLeft, hf]⟩
  · exact ⟨rfl, rfl, rfl, rfl, fun _ => rfl, by simp [State.stepsLeft, hf]⟩

/-- An operation of a running invocation goes on to another state of it, or to DONE. -/
theorem step_advances (hs : 1 ≤ s.cfg.scanStep) (hb : s.busy = true) (ho : s.operates = true)
    (h : step s = .next t) : Advances s t := by
  have hrest : ¬ (s.fsm = .idle ∨ s.fsm = .done) := not_or.2 (Fsm.running_iff.1 hb)
  obtain ⟨u, rfl, hu⟩ := operate_cases ho h
  rcases hu with ⟨ha, rfl⟩ | ⟨-, hu⟩
  · obtain ⟨-, hf, -⟩ := atFrame_iff.1 ha
    exact .decodeCandidate _ hf
  rcases hu with ⟨hf, -, -⟩ | ⟨hf, -, -⟩ | ⟨i, hf, hi, rfl⟩ | ⟨hf, -, rfl⟩ | ⟨hf, -, rfl⟩ | ⟨hf, -, rfl⟩ |
    ⟨b, hf, -, rfl⟩ | ⟨hf, -, rfl⟩ | ⟨hf, -, rfl⟩ | ⟨hf, -, rfl⟩ | ⟨hf, rfl⟩ | ⟨hf, rfl⟩
  · exact absurd hf hrest
  · exact absurd hf hrest
  · refine ⟨rfl, rfl, rfl, rfl, fun _ => rfl, ?_⟩
    have hless : iterationsLeft s.cfg s.row (i + s.cfg.scanStep) + 1 ≤ iterationsLeft s.cfg s.row s.pos :=
      iterationsLeft_of_locate hs hi
    simp only [State.stepsLeft, hf, State.dropStimulus_fsm, State.found_fsm, State.dropStimulus_cfg, State.found_cfg,
      State.dropStimulus_row, State.found_row, State.dropStimulus_m, State.found_m]
    omega
  · exact ⟨rfl, rfl, rfl, rfl, absurd rfl, by simp [State.stepsLeft, hf]⟩
  · exact ⟨rfl, rfl, rfl, rfl, fun _ => rfl, by simp [State.stepsLeft, hf]⟩
  · exact ⟨rfl, rfl, rfl, rfl, absurd rfl, by simp [State.stepsLeft, hf]⟩
  · exact ⟨rfl, rfl, rfl, rfl, fun _ => rfl, by simp [State.stepsLeft, hf]⟩
  · exact ⟨rfl, rfl, rfl, rfl, fun _ => rfl, by simp [State.stepsLeft, hf]⟩
  · exact ⟨rfl, rfl, rfl, rfl, fun _ => rfl, by simp [State.stepsLeft, hf]⟩
  · exact ⟨rfl, rfl, rfl, rfl, fun _ => rfl, by simp [State.stepsLeft, hf]⟩
  · exact ⟨rfl, rfl, rfl, earlierRecords_emitRecord s, fun _ => rfl, by simp [State.stepsLeft, hf]⟩
  · exact ⟨rfl, rfl, rfl, rfl, fun _ => rfl, by simp [State.stepsLeft, hf]⟩

/-- The state after an invocation over `row`, the sink holding `before` when it began (R105, R108, R113). -/
structure Finished (c : Cfg) (row : Row) (before : List DecodedRecord) (t : State) : Prop where
  done : t.fsm = .done
  emitted : t.emitted = before ++ scan c row
  count : t.count = scanCount c row
  fMatch : t.fMatch = (locate c row 0).isSome
  fRej : t.fRej = (candidates c row).any (rejects c row)
  fTrunc : t.fTrunc = scanTruncated c row

/-- The last step of an invocation finishes it. -/
theorem finished_of_step (hwf : s.cfg.wf = true) (h : ScanInv s) (hb : s.busy = true) (hst : step s = .next t)
    (ha : Advances s t) (ht : t.fsm = .done) : Finished s.cfg s.row s.earlierRecords t := by
  obtain ⟨hrec, hcount, hmatch, hrej, htrunc⟩ := endOfRunHoldsTheScan s t hwf h hb hst ht
  refine ⟨ht, ?_, hcount, hmatch, hrej, htrunc⟩
  rw [← earlierRecords_append_invocationRecords t, hrec, ha.earlier]

/-- A running invocation left alone is finished within the steps of its variant (R109). -/
theorem runs_to_done (hwf : s.cfg.wf = true) (h : ScanInv s) (hb : s.busy = true) (hu : s.undisturbed = true) :
    ∃ k t, k ≤ s.stepsLeft ∧ steps k s = .next t ∧ Finished s.cfg s.row s.earlierRecords t := by
  induction hn : s.stepsLeft using Nat.strong_induction_on generalizing s with
  | h n ih =>
    have ho : s.operates = true := operates_of_undisturbed hu
    obtain ⟨-, hstep⟩ := everyOperationAnswersNext
    obtain ⟨t, hst⟩ := hstep s ho
    have ha : Advances s t := step_advances (one_le_scanStep_of_wf hwf) hb ho hst
    have hcloser : t.stepsLeft < n := hn ▸ ha.closer
    by_cases ht : t.fsm = .done
    · exact ⟨1, t, by omega, by simp [steps, hst], finished_of_step hwf h hb hst ha ht⟩
    have hut : t.undisturbed = true := by
      rw [State.undisturbed, ha.stimuli]
      exact undisturbed_dropStimulus hu
    obtain ⟨k, e, hk, hsteps, hfin⟩ :=
      ih t.stepsLeft hcloser (ha.cfg ▸ hwf) (stepKeepsTheScan s t hwf h hst) (ha.busy ht) hut rfl
    refine ⟨k + 1, e, by omega, by simpa [steps, hst] using hsteps, ?_⟩
    rw [← ha.cfg, ← ha.row, ← ha.earlier]
    exact hfin

theorem isSome_locate_iff {c : Cfg} {row : Row} :
    (locate c row 0).isSome = true ↔ ∃ i, occursAt c row i = true := by
  rw [← Option.ne_none_iff_isSome, Ne, locate_eq_none]
  simp

/-- The steps of R109: START's, and those of the variant after it. -/
theorem stepsLeft_beginInvocation (hs : 1 ≤ s.cfg.scanStep) :
    s.beginInvocation.dropStimulus.stepsLeft = 6 * ((s.rowNamed s.pins.rowSel).len / s.cfg.scanStep + 1) + 2 := by
  rw [← Nat.add_div_right _ hs]
  rfl

/-- Settles O59: START, then the running invocation to its end. -/
theorem invocationComputesTheScan : Obligations.InvocationComputesTheScan := by
  intro s p rest hwf hf hs hstart hu row
  have hpins : s.pins = p := by rw [State.pins, hs]
  have hfirst : step s = .next s.beginInvocation.dropStimulus :=
    step_start (operates_of_undisturbed hu) hf (hpins ▸ hstart)
  obtain ⟨k, t, hk, hsteps, hfin⟩ := runs_to_done (s := s.beginInvocation.dropStimulus) hwf
    (ScanInv.beginInvocation s).dropStimulus rfl (undisturbed_dropStimulus hu)
  have hrow : s.beginInvocation.dropStimulus.row = row := congrArg (fun q : Pins => s.rowNamed q.rowSel) hpins
  have hbefore : s.beginInvocation.dropStimulus.earlierRecords = s.emitted := List.take_length
  rw [stepsLeft_beginInvocation (one_le_scanStep_of_wf hwf), hpins] at hk
  rw [hrow, hbefore] at hfin
  obtain ⟨hdone, hemitted, hcount, hmatch, hrej, htrunc⟩ := hfin
  refine ⟨k + 1, t, Nat.succ_le_succ hk, by simpa [steps, hfirst] using hsteps, hdone, hemitted, hcount, ?_, ?_,
    htrunc⟩
  · rw [hmatch]
    exact isSome_locate_iff
  · rw [hrej]
    exact List.any_eq_true

end Sys2Proof.Machine
end

section
/-! SUPPORT. EXTRACT, the frame_extractor's operation: the bits of the frame it loads (R122, R186), that the frame is all
`decode` reads (R120), and the one way a step records InsufficientBits (R124). -/

namespace Sys2Proof.Machine

variable {s t : State} {c : Cfg} {row row' : Row}

/-- The bits of a byte of the row, the first the most significant (R54). -/
theorem rowByte_getLsbD (row : Row) (p : Nat) {j : Nat} (hj : j < 8) :
    (rowByte row p).getLsbD (7 - j) = rowBit row (p + j) := by
  rw [BitVec.getLsbD, rowByte_toNat]
  exact readBits_testBit p hj

theorem frameByte_frameBytesAt (row : Row) (fs : Nat) :
    ∀ k, k < 8 → frameByte (frameBytesAt row fs) k = rowByte row (fs + 8 * k)
  | 0, _ | 1, _ | 2, _ | 3, _ | 4, _ | 5, _ | 6, _ | 7, _ => rfl

theorem exec_extract_of_some {b : RawFrame} (start : Bool) (hb : extractFrame s.row (frameStart s.cfg s.m) = some b) :
    exec (.extract start) s = .next (s.loadFrame b) := by
  rw [exec, execExtract, State.extractNext, hb]

theorem exec_extract_of_none (start : Bool) (hb : extractFrame s.row (frameStart s.cfg s.m) = none) :
    exec (.extract start) s = .next (s.raise .insufficientBits) := by
  rw [exec, execExtract, State.extractNext, hb]

/-- Settles O19: the two answers of the extraction, and byte `k` of the frame it finds is the row's byte from its bit
`8 * k` on. -/
theorem extractReadsTheFrame : Obligations.ExtractReadsTheFrame := by
  refine fun s start => ⟨fun hle => ⟨frameBytesAt s.row (frameStart s.cfg s.m), ?_, fun k j hk hj => ?_⟩,
    fun hlt => ?_, fun hf => by rw [decodeSelector_sel, hf]⟩
  · exact exec_extract_of_some start (extractFrame_eq_some.2 ⟨hle, rfl⟩)
  · rw [frameByte_frameBytesAt _ _ k hk, rowByte_getLsbD _ _ hj, frameStart]
  · exact exec_extract_of_none start (extractFrame_eq_none.2 hlt)

/-- Frames with the same 64 bits are the same, wherever they stand. -/
theorem frameBytesAt_congr {fs fs' : Nat} (h : ∀ j, j < 64 → rowBit row (fs + j) = rowBit row' (fs' + j)) :
    frameBytesAt row fs = frameBytesAt row' fs' := by
  have hbyte (k : Nat) (hk : k < 8) : rowByte row (fs + 8 * k) = rowByte row' (fs' + 8 * k) := by
    rw [rowByte, rowByte, readBits_congr fun j hj => ?_]
    rw [Nat.add_assoc, Nat.add_assoc, h _ (by omega)]
  rw [frameBytesAt, frameBytesAt]
  congr 1 <;> exact hbyte _ (by decide)

/-- Settles O44: `decode` reads the row through the extraction only, and that reads the frame's 64 bits, where they are
there. -/
theorem decodeReadsOnlyTheFrame : Obligations.DecodeReadsOnlyTheFrame := by
  intro c row row' fs hlen hbits
  have hframe : extractFrame row fs = extractFrame row' fs := by
    rw [extractFrame, extractFrame, frameBytesAt_congr hbits]
    exact if_congr hlen rfl rfl
  rw [decodeFrame, decodeFrame, hframe]

/-- What a step does to `last_err`: it keeps it, clears it, records a ChecksumMismatch, or records InsufficientBits in an
EXTRACT that finds no frame. -/
theorem step_lastErr (h : step s = .next t) :
    t.lastErr = s.lastErr ∨ t.lastErr = none ∨ t.lastErr = some .checksumMismatch
      ∨ (s.fsm = .extract ∧ extractFrame s.row (frameStart s.cfg s.m) = none
          ∧ t.lastErr = some .insufficientBits) := by
  rcases step_next h with ⟨r, bits, rest, -, -, rfl⟩ | ⟨-, rfl⟩ | ⟨ho, -⟩
  · exact .inl rfl
  · exact .inr (.inl rfl)
  obtain ⟨u, rfl, hu⟩ := operate_cases ho h
  rcases hu with ⟨-, rfl⟩ | ⟨-, hu⟩
  · rcases s.decodeCandidate_cases (frameBytesAt s.row (s.m + 24)) with ⟨-, hu⟩ | ⟨-, hu⟩ <;> rw [hu]
    · exact .inl rfl
    · exact .inr (.inr (.inl rfl))
  rcases hu with ⟨-, -, rfl⟩ | ⟨-, -, rfl⟩ | ⟨_, -, -, rfl⟩ | ⟨-, -, rfl⟩ | ⟨-, -, rfl⟩ | ⟨-, -, rfl⟩ |
    ⟨_, -, -, rfl⟩ | ⟨hf, hnone, rfl⟩ | ⟨-, -, rfl⟩ | ⟨-, -, rfl⟩ | ⟨-, rfl⟩ | ⟨-, rfl⟩
  · exact .inr (.inl rfl)
  · exact .inl rfl
  · exact .inl rfl
  · exact .inl rfl
  · exact .inl rfl
  · exact .inl rfl
  · exact .inl rfl
  · exact .inr (.inr (.inr ⟨hf, hnone, rfl⟩))
  · exact .inl rfl
  · exact .inr (.inr (.inl rfl))
  · exact .inl rfl
  · exact .inl rfl

/-- Where the span covers the frame (R7 (e)), a candidate with its span has its frame. -/
theorem extractFrame_ne_none_of_spanOk {m : Nat} (hc : c.spanCovers = true) (hspan : spanOk c row m = true) :
    extractFrame row (frameStart c m) ≠ none := by
  have hcover : c.patternLen + 64 ≤ c.tailAlign + c.minSpan := of_decide_eq_true hc
  have hend := spanOk_iff.1 hspan
  rw [Ne, extractFrame_eq_none, frameStart]
  omega

/-- Settles O55: InsufficientBits is recorded only by an EXTRACT that finds no frame, and a candidate in EXTRACT has
passed its span check. -/
theorem insufficientBitsNeverRecorded : Obligations.InsufficientBitsNeverRecorded := by
  intro s t hc h herr hst
  rcases step_lastErr hst with hkeep | hclear | hsum | ⟨hf, hnone, -⟩
  · rwa [hkeep]
  · simp [hclear]
  · simp [hsum]
  · exact absurd hnone (extractFrame_ne_none_of_spanOk hc (h.span (by rw [hf]; rfl)))

end Sys2Proof.Machine
end

section
/-! SUPPORT. SUM8CHK, the checksum_validator's operation (R131), and what the sum tells of a frame: not the order of its
bytes (R132), but any error of a single bit (R133). -/

namespace Sys2Proof.Machine

variable {b b' : RawFrame} {k : Nat}

/-- The criterion in numbers: the sum of seven bytes modulo 256 against the eighth (R131, R132). -/
theorem accepted_iff_toNat :
    accepted b = true ↔
      (b.b0.toNat + b.b1.toNat + b.b2.toNat + b.b3.toNat + b.b4.toNat + b.b5.toNat + b.b6.toNat) % 256
        = b.b7.toNat := by
  rw [accepted_iff, ← BitVec.toNat_inj, sum8, BitVec.toNat_ofNat]

/-- Settles O20: the two verdicts of SUM8CHK, told apart by the criterion in numbers. -/
theorem checksumIsCheckedAndRecorded : Obligations.ChecksumIsCheckedAndRecorded := by
  intro s start sum
  have hverdict : accepted s.fb = true ↔ sum % 256 = s.fb.b7.toNat := accepted_iff_toNat
  have hsel (hf : s.fsm = .sum8chk) : decodeSelector s.sel = .sum8chk s.pins.start := by rw [decodeSelector_sel, hf]
  rw [exec, execSum8chk, ← hverdict, Ne, ← hverdict]
  rcases s.checkSum_cases with ⟨hacc, hu⟩ | ⟨hacc, hu⟩ <;> rw [hacc, hu]
  · exact ⟨fun _ => rfl, by simp, hsel⟩
  · exact ⟨by simp, fun _ => rfl, hsel⟩

/-- The checksum is the sum of the first seven bytes in the arithmetic of bytes (R130). -/
theorem sum8_eq_sum (b : RawFrame) : sum8 b = ((List.range 7).map (frameByte b)).sum := by
  simp [sum8, List.range_succ, frameByte, BitVec.ofNat_add, add_assoc]

theorem sum8_eq_of_perm
    (h : [b.b0, b.b1, b.b2, b.b3, b.b4, b.b5, b.b6].Perm [b'.b0, b'.b1, b'.b2, b'.b3, b'.b4, b'.b5, b'.b6]) :
    sum8 b = sum8 b' := by
  rw [sum8_eq_sum, sum8_eq_sum]
  exact h.sum_eq

/-- The eighth byte is not summed, so only the sum itself is accepted there (R132). -/
theorem accepted_with_b7 (b : RawFrame) (w : Byte) : accepted { b with b7 := w } = true ↔ w = sum8 b :=
  accepted_iff.trans eq_comm

/-- Settles O45: a sum does not depend on the order of its terms, and the accepted eighth byte is the sum. -/
theorem checksumIgnoresOrder : Obligations.ChecksumIgnoresOrder :=
  ⟨fun _ _ => sum8_eq_of_perm, fun b => ⟨sum8 b, accepted_with_b7 b⟩⟩

/-- Two frames with one sum that agree in six of the seven summed bytes agree in the seventh too. -/
theorem frameByte_eq_of_sum8_eq (hk : k < 7) (hrest : ∀ n, n < 7 → n ≠ k → frameByte b' n = frameByte b n)
    (hsum : sum8 b' = sum8 b) : frameByte b' k = frameByte b k := by
  have hmem : k ∈ List.range 7 := List.mem_range.2 hk
  have hothers : ((List.range 7).erase k).map (frameByte b') = ((List.range 7).erase k).map (frameByte b) := by
    refine List.map_congr_left fun n hn => ?_
    obtain ⟨hne, hn⟩ := List.nodup_range.mem_erase_iff.1 hn
    exact hrest n (List.mem_range.1 hn) hne
  rw [sum8_eq_sum, sum8_eq_sum, ← List.sum_map_erase _ hmem, ← List.sum_map_erase _ hmem, hothers] at hsum
  exact add_right_cancel hsum

theorem sum8_congr (h : ∀ n, n < 7 → frameByte b' n = frameByte b n) : sum8 b' = sum8 b := by
  rw [sum8_eq_sum, sum8_eq_sum, List.map_congr_left fun n hn => h n (List.mem_range.1 hn)]

/-- Any seven bytes of an accepted frame determine the eighth. -/
theorem frameByte_eq_of_accepted (hk : k < 8) (hacc : accepted b = true) (hacc' : accepted b' = true)
    (hrest : ∀ n, n < 8 → n ≠ k → frameByte b' n = frameByte b n) : frameByte b' k = frameByte b k := by
  have hb : sum8 b = frameByte b 7 := accepted_iff.1 hacc
  have hb' : sum8 b' = frameByte b' 7 := accepted_iff.1 hacc'
  rcases Nat.lt_succ_iff_lt_or_eq.1 hk with hk7 | rfl
  · refine frameByte_eq_of_sum8_eq hk7 (fun n hn => hrest n (by omega)) ?_
    rw [hb, hb', hrest 7 (by omega) (by omega)]
  · rw [← hb, ← hb', sum8_congr fun n hn => hrest n (by omega) (by omega)]

theorem bit_ne_zero : ∀ j, j < 8 → 1#8 <<< j ≠ 0#8 := by decide

/-- Settles O46: were the frame with the flipped bit accepted too, its byte would be the byte before the error. -/
theorem singleBitErrorIsDetected : Obligations.SingleBitErrorIsDetected := by
  intro b b' k j hk hj hacc hrest hflip
  refine Bool.eq_false_iff.2 fun hacc' => bit_ne_zero j hj ?_
  have hsame := frameByte_eq_of_accepted hk hacc hacc' hrest
  rw [hflip] at hsame
  simpa using hsame

end Sys2Proof.Machine
end

section
/-! SUPPORT. MAPEMIT, the field_decoder's operation: the fields as numbers (R141 to R145), the one way into its state,
the exact temperature (R144), and that an accepted frame is what its four fields make of it (R149). -/

namespace Sys2Proof.Machine

variable {s t : State}

/-! ### The fields and the operation -/

theorem fieldId_toNat (b : RawFrame) :
    (fieldId b).toNat = 65536 * b.b0.toNat + 256 * b.b1.toNat + b.b2.toNat := by
  simp only [fieldId, toNat_append_byte]
  ring

theorem fieldPressure_toNat (b : RawFrame) : (fieldPressure b).toNat = 256 * b.b3.toNat + b.b4.toNat := by
  rw [fieldPressure, toNat_append_byte, Nat.mul_comm]

theorem fieldRaw_toNat (b : RawFrame) :
    (fieldRaw b).toNat = ((((((b.b0.toNat * 256 + b.b1.toNat) * 256 + b.b2.toNat) * 256 + b.b3.toNat) * 256
      + b.b4.toNat) * 256 + b.b5.toNat) * 256 + b.b6.toNat) * 256 + b.b7.toNat := by
  simp only [fieldRaw, toNat_append_byte]

/-- The one way into MAPEMIT (R106, R132), with what it writes. -/
theorem step_enters_mapemit (h : step s = .next t) (ht : t.fsm = .mapemit) (hs : s.fsm ≠ .mapemit) :
    s.fsm = .sum8chk ∧ accepted s.fb = true ∧ t = ((s.setAcc (sum8 s.fb)).enter .mapemit).dropStimulus := by
  rcases step_next h with ⟨r, bits, rest, -, -, rfl⟩ | ⟨-, rfl⟩ | ⟨ho, -⟩
  · exact absurd ht hs
  · cases ht
  obtain ⟨u, rfl, hu⟩ := operate_cases ho h
  rcases hu with ⟨-, rfl⟩ | ⟨-, hu⟩
  · rcases s.decodeCandidate_cases (frameBytesAt s.row (s.m + 24)) with ⟨-, hu⟩ | ⟨-, hu⟩ <;>
      rw [hu] at ht <;> cases ht
  rcases hu with ⟨-, -, rfl⟩ | ⟨-, -, rfl⟩ | ⟨_, -, -, rfl⟩ | ⟨-, -, rfl⟩ | ⟨-, -, rfl⟩ | ⟨-, -, rfl⟩ |
    ⟨_, -, -, rfl⟩ | ⟨-, -, rfl⟩ | ⟨hf, hacc, rfl⟩ | ⟨-, -, rfl⟩ | ⟨-, rfl⟩ | ⟨-, rfl⟩
  any_goals cases ht
  · exact absurd ht hs
  · exact ⟨hf, hacc, rfl⟩

/-- Settles O21: the record is `mapFields` of `fb`, field by field, and SUM8CHK alone leads to MAPEMIT. -/
theorem mapEmitHandsOverTheRecord : Obligations.MapEmitHandsOverTheRecord := by
  refine fun s start => ⟨mapFields s.cfg s.fb, rfl, fieldId_toNat _, rfl, fieldPressure_toNat _, rfl,
    fieldRaw_toNat _, rfl, rfl, rfl, fun hf => by rw [decodeSelector_sel, hf], fun t h ht hs => ?_⟩
  obtain ⟨hf, hacc, -⟩ := step_enters_mapemit h ht hs
  exact ⟨hf, hacc⟩

/-! ### The temperature -/

/-- With the default offset the temperature lies in the range of a byte less 50 (R144). -/
theorem fieldTemperature_bounds {c : Cfg} (b : RawFrame) (hc : c.tempOffset = 50) :
    -50 ≤ fieldTemperature c b ∧ fieldTemperature c b ≤ 205 := by
  have hbyte : b.b5.toNat < 256 := b.b5.isLt
  rw [fieldTemperature, hc]
  omega

/-- A temperature within the signed range of 9 bits stands on the port as it is. -/
theorem recTemp_toInt {c : Cfg} {b : RawFrame} (hlo : -256 ≤ fieldTemperature c b)
    (hhi : fieldTemperature c b < 256) : (recTemp c b).toInt = fieldTemperature c b := by
  rw [recTemp_eq_ofInt]
  exact BitVec.toInt_ofInt_eq_self (by decide) hlo hhi

/-- Settles O47: the 256 temperatures lie within the signed range of the port. -/
theorem temperatureIsExact : Obligations.TemperatureIsExact := by
  intro c b hc
  obtain ⟨hlo, hhi⟩ := fieldTemperature_bounds b hc
  exact ⟨by rw [fieldTemperature, hc]; rfl, hlo, hhi, recTemp_toInt (by omega) (by omega)⟩

/-! ### Accepted frames and their fields -/

/-- The frame of four field values whose eighth byte is the sum of the seven before it (R130, R132). -/
def acceptedFrame (ident : BitVec 24) (pressure : BitVec 16) (tempRaw status : Byte) : RawFrame :=
  .ofFields ident pressure tempRaw status (sum8 (.ofFields ident pressure tempRaw status 0))

theorem accepted_acceptedFrame (ident : BitVec 24) (pressure : BitVec 16) (tempRaw status : Byte) :
    accepted (acceptedFrame ident pressure tempRaw status) = true :=
  (accepted_with_b7 (.ofFields ident pressure tempRaw status 0) _).2 rfl

theorem eq_acceptedFrame {b : RawFrame} (h : accepted b = true) :
    b = acceptedFrame (fieldId b) (fieldPressure b) b.b5 b.b6 := by
  have hzero : RawFrame.ofFields (fieldId b) (fieldPressure b) b.b5 b.b6 0 = { b with b7 := 0 } :=
    ofFields_of_bytes { b with b7 := 0 }
  have hsum : sum8 { b with b7 := 0 } = b.b7 := accepted_iff.1 h
  rw [acceptedFrame, hzero, hsum]
  exact (ofFields_of_bytes b).symm

/-- The offset is the same for both, so equal temperatures come from equal raw bytes. -/
theorem tempRaw_eq_of_fieldTemperature_eq {c : Cfg} {b b' : RawFrame}
    (h : fieldTemperature c b = fieldTemperature c b') : b.b5 = b'.b5 := by
  rw [fieldTemperature, fieldTemperature] at h
  exact BitVec.eq_of_toNat_eq (by omega)

/-- Settles O48: an accepted frame is the accepted frame of its fields, and there is one for all values of them. -/
theorem recordDeterminesFrame : Obligations.RecordDeterminesFrame := by
  refine ⟨fun c b b' hacc hacc' hident hpressure htemp hstatus => ?_, fun c ident pressure tempRaw status =>
    ⟨acceptedFrame ident pressure tempRaw status, accepted_acceptedFrame .., fieldId_ofFields ..,
      fieldPressure_ofFields .., rfl, rfl⟩⟩
  have hident : fieldId b = fieldId b' := hident
  have hpressure : fieldPressure b = fieldPressure b' := hpressure
  have hstatus : b.b6 = b'.b6 := hstatus
  rw [eq_acceptedFrame hacc, eq_acceptedFrame hacc', hident, hpressure, tempRaw_eq_of_fieldTemperature_eq htemp,
    hstatus]

end Sys2Proof.Machine
end

section
/-! SUPPORT. The decimal texts as the digits of their values (R150 (d), (e)). -/

namespace Sys2Proof.Machine

/-- The digits are put before those already there. -/
theorem decDigitsAux_append (v fuel : Nat) (acc : List Char) :
    decDigitsAux v fuel acc = decDigitsAux v fuel [] ++ acc := by
  induction fuel generalizing v acc with
  | zero => rfl
  | succ fuel ih =>
    rw [decDigitsAux, decDigitsAux]
    split
    · rfl
    · rw [ih _ (_ :: acc), ih _ [_], List.append_assoc, List.singleton_append]

/-- Any fuel above the value gives the same digits. -/
theorem decDigitsAux_eq_decDigits {v fuel : Nat} (h : v < fuel) : decDigitsAux v fuel [] = decDigits v := by
  have hfuel (fuel' : Nat) (h' : v < fuel') : decDigitsAux v fuel [] = decDigitsAux v fuel' [] := by
    induction fuel generalizing v fuel' with
    | zero => omega
    | succ fuel ih =>
      obtain ⟨fuel', rfl⟩ := Nat.exists_eq_add_one_of_ne_zero (Nat.ne_zero_of_lt h')
      rw [decDigitsAux, decDigitsAux]
      split
      · rfl
      · rw [decDigitsAux_append _ fuel, decDigitsAux_append _ fuel', ih (by omega) fuel' (by omega)]
  exact hfuel (v + 1) v.lt_succ_self

theorem decDigits_of_lt {v : Nat} (h : v < 10) : decDigits v = [hexDigit v] := by
  rw [decDigits, decDigitsAux, if_pos h]

theorem decDigits_of_le {v : Nat} (h : 10 ≤ v) : decDigits v = decDigits (v / 10) ++ [hexDigit (v % 10)] := by
  rw [decDigits, decDigitsAux, if_neg (not_lt.2 h), decDigitsAux_append, decDigitsAux_eq_decDigits (by omega)]

/-- What holds of one digit, and still holds when one more is appended, holds of every decimal text. -/
theorem decDigits_induction {P : Nat → List Char → Prop} (digit : ∀ v, v < 10 → P v [hexDigit v])
    (append : ∀ v, 10 ≤ v → P (v / 10) (decDigits (v / 10)) → P v (decDigits (v / 10) ++ [hexDigit (v % 10)]))
    (v : Nat) : P v (decDigits v) := by
  induction v using Nat.strong_induction_on with
  | h v ih =>
    rcases Nat.lt_or_ge v 10 with hv | hv
    · exact decDigits_of_lt hv ▸ digit v hv
    · exact decDigits_of_le hv ▸ append v hv (ih _ (by omega))

theorem decDigits_ne_nil (v : Nat) : decDigits v ≠ [] :=
  decDigits_induction (P := fun _ text => text ≠ []) (by simp) (by simp) v

theorem hexDigit_mem_decimal : ∀ d, d < 10 → hexDigit d ∈ hexAlphabet.take 10 := by decide

theorem mem_decimal_of_mem_decDigits (v : Nat) : ∀ ch ∈ decDigits v, ch ∈ hexAlphabet.take 10 := by
  refine decDigits_induction (P := fun _ text => ∀ ch ∈ text, ch ∈ hexAlphabet.take 10) (fun v hv => ?_)
    (fun v _ ih => ?_) v
  · exact List.forall_mem_singleton.2 (hexDigit_mem_decimal v hv)
  · exact List.forall_mem_append.2
      ⟨ih, List.forall_mem_singleton.2 (hexDigit_mem_decimal _ (Nat.mod_lt _ (by decide)))⟩

/-- The digits read back as the value. -/
theorem foldl_decDigits (v : Nat) : (decDigits v).foldl (fun n ch => 10 * n + hexAlphabet.idxOf ch) 0 = v := by
  refine decDigits_induction
    (P := fun v text => text.foldl (fun n ch => 10 * n + hexAlphabet.idxOf ch) 0 = v) (fun v hv => ?_)
    (fun v _ ih => ?_) v
  · rw [List.foldl_cons, List.foldl_nil, idxOf_hexDigit v (by omega), Nat.mul_zero, Nat.zero_add]
  · rw [List.foldl_append, ih, List.foldl_cons, List.foldl_nil, idxOf_hexDigit _ (by omega), Nat.div_add_mod]

theorem eq_zero_of_hexDigit_eq : ∀ d, d < 10 → hexDigit d = '0' → d = 0 := by decide

/-- No padding: a text that begins with 0 is the text of 0 (R150 (d)). -/
theorem eq_zero_of_head?_decDigits (v : Nat) : (decDigits v).head? = some '0' → v = 0 := by
  refine decDigits_induction (P := fun v text => text.head? = some '0' → v = 0) (fun v hv h => ?_)
    (fun v hv ih h => ?_) v
  · exact eq_zero_of_hexDigit_eq v hv (Option.some.inj h)
  · rw [List.head?_append_of_ne_nil _ (decDigits_ne_nil _)] at h
    have hdiv := ih h
    omega

theorem renderTemperature_natCast (n : Nat) : renderTemperature (n : Int) = decDigits n := by
  rw [renderTemperature, if_neg (by omega), Int.natAbs_natCast]

/-- The minus stands before the digits of the magnitude (R150 (e)). -/
theorem renderTemperature_neg {n : Nat} (h : 1 ≤ n) : renderTemperature (-(n : Int)) = '-' :: decDigits n := by
  rw [renderTemperature, if_pos (by omega), Int.natAbs_neg, Int.natAbs_natCast]

/-- Settles O50: the facts of the digits, by induction on the number of them, and the two signs of a temperature. -/
theorem decimalRenderings : Obligations.DecimalRenderings := by
  refine ⟨fun v => ⟨decDigits_ne_nil v, mem_decimal_of_mem_decDigits v, foldl_decDigits v, fun h => ?_⟩,
    fun _ => rfl, renderTemperature_natCast, fun _ => renderTemperature_neg⟩
  obtain rfl := eq_zero_of_head?_decDigits v h
  exact ⟨rfl, rfl⟩

end Sys2Proof.Machine
end

section
/-! SUPPORT. The host's two readings of the block: a result without record and rejection (R163), and a START that leaves
nothing of the invocations before it (R167, R201). -/

namespace Sys2Proof.Machine

/-- A candidate is rejected exactly where it gives no record: every candidate does one of the two (R163). -/
theorem candidateRecords_eq_nil_iff {c : Cfg} {row : Row} {m : Nat} :
    candidateRecords c row m = [] ↔ rejects c row m = true := by
  cases h : decodeFrame c row (frameStart c m) with
  | ok r => simp [candidate_of_ok h]
  | error k => simp [candidate_of_error h]

/-- No record at all means that every candidate was rejected. -/
theorem scanCount_eq_zero_iff {c : Cfg} {row : Row} :
    scanCount c row = 0 ↔ ∀ m ∈ candidates c row, rejects c row m = true := by
  simp only [scanCount, List.length_eq_zero_iff, scanIsTheRecordsOfItsCandidates c row, List.flatMap_eq_nil_iff,
    candidateRecords_eq_nil_iff]

/-- Settles O42: a candidate would have to be rejected, for want of a record, and not rejected. -/
theorem noRecordNoRejectionNoCandidate : Obligations.NoRecordNoRejectionNoCandidate := by
  refine fun c row => ⟨fun ⟨hcount, hnone⟩ => List.eq_nil_iff_forall_not_mem.2 fun m hm => ?_, fun hnil => ?_⟩
  · have hrejected : rejects c row m = true := scanCount_eq_zero_iff.1 hcount m hm
    exact List.any_eq_false.1 hnone m hm hrejected
  · simp [scanCount_eq_zero_iff, hnil]

/-- START needs no agreement before it: it takes `rsel` from the inputs, gives the other live registers their start
values, and leaves the rest dead (R41). -/
theorem agreeLive_beginInvocation {s s' : State} (hcfg : s.cfg = s'.cfg) (hrows : s.rows = s'.rows)
    (hstimuli : s.stimuli = s'.stimuli) (hemitted : s.emitted = s'.emitted) :
    AgreeLive s.beginInvocation s'.beginInvocation where
  cfg := hcfg
  rows := hrows
  stimuli := hstimuli
  emitted := hemitted
  fsm := rfl
  count := rfl
  fMatch := rfl
  fRej := rfl
  fTrunc := rfl
  lastErr := rfl
  errM := fun hmeaningful => absurd rfl hmeaningful
  rsel := fun _ => by simp only [State.beginInvocation_rsel, State.pins, hstimuli]
  pos := fun _ => rfl
  m := nofun
  fb := nofun

/-- Settles O57: both rows of START perform `beginInvocation`. -/
theorem startForgetsThePast : Obligations.StartForgetsThePast :=
  fun s s' hcfg hrows hstimuli hemitted => ⟨s.beginInvocation, s'.beginInvocation, rfl, rfl,
    agreeLive_beginInvocation hcfg hrows hstimuli hemitted⟩

end Sys2Proof.Machine
end

section
/-! SUPPORT. A `start` pulse in a running state (R205): the operations of the running states read no input, and what selects
among them depends on `rst`, the level and the control state, so a step there is the same with `start` and without. -/

namespace Sys2Proof.Machine

/-- The state under other inputs. -/
def State.withInputs (s : State) (inputs : List Stimulus) : State := { s with stimuli := inputs }

variable (s : State) (inputs : List Stimulus)

@[simp] theorem State.withInputs_cfg : (s.withInputs inputs).cfg = s.cfg := rfl
@[simp] theorem State.withInputs_row : (s.withInputs inputs).row = s.row := rfl
@[simp] theorem State.withInputs_fsm : (s.withInputs inputs).fsm = s.fsm := rfl
@[simp] theorem State.withInputs_pos : (s.withInputs inputs).pos = s.pos := rfl
@[simp] theorem State.withInputs_m : (s.withInputs inputs).m = s.m := rfl
@[simp] theorem State.withInputs_fb : (s.withInputs inputs).fb = s.fb := rfl

/-! ### The operations of the running states under other inputs -/

theorem State.locateNext_withInputs : (s.withInputs inputs).locateNext = s.locateNext.withInputs inputs := by
  rw [State.locateNext, State.locateNext, State.withInputs_cfg, State.withInputs_row, State.withInputs_pos]
  split <;> rfl

theorem State.checkSpan_withInputs : (s.withInputs inputs).checkSpan = s.checkSpan.withInputs inputs := by
  rw [State.checkSpan, State.checkSpan, State.withInputs_cfg, State.withInputs_row, State.withInputs_m]
  split <;> rfl

theorem State.extractNext_withInputs : (s.withInputs inputs).extractNext = s.extractNext.withInputs inputs := by
  rw [State.extractNext, State.extractNext, State.withInputs_cfg, State.withInputs_row, State.withInputs_m]
  split <;> rfl

theorem State.checkSum_withInputs : (s.withInputs inputs).checkSum = s.checkSum.withInputs inputs := by
  rw [State.checkSum, State.checkSum, State.withInputs_fb]
  split <;> rfl

theorem State.decodeCandidate_withInputs (b : RawFrame) :
    (s.withInputs inputs).decodeCandidate b = (s.decodeCandidate b).withInputs inputs := by
  have hsum : ((s.withInputs inputs).loadFrame b).checkSum = (s.loadFrame b).checkSum.withInputs inputs :=
    (s.loadFrame b).checkSum_withInputs inputs
  rw [State.decodeCandidate, State.decodeCandidate, hsum]
  split <;> rfl

/-- Whether a candidate is decoded at level F depends on the level alone of the inputs. -/
theorem State.atFrame_withInputs (hl : (s.withInputs inputs).pins.level = s.pins.level) :
    (s.withInputs inputs).atFrame = s.atFrame := by
  rw [State.atFrame, State.atFrame, hl]
  rfl

/-- What an operating step writes in a running state: a candidate's decoding at level F (R120), else the operation of
the control state (R77). -/
def State.runningOperation (s : State) : State :=
  if s.atFrame then s.decodeCandidate (frameBytesAt s.row (s.m + 24))
  else match s.fsm with
    | .locate => s.locateNext
    | .spanchk => s.checkSpan
    | .extract => s.extractNext
    | .sum8chk => s.checkSum
    | .mapemit => s.emitRecord
    | .advance => s.advancePos
    | .idle => s
    | .done => s

/-- The operation of a running state reads no input but the level. -/
theorem State.runningOperation_withInputs (ha : (s.withInputs inputs).atFrame = s.atFrame) :
    (s.withInputs inputs).runningOperation = s.runningOperation.withInputs inputs := by
  rw [State.runningOperation, State.runningOperation, ha, State.withInputs_fsm]
  split
  · exact s.decodeCandidate_withInputs inputs _
  · cases s.fsm with
    | locate => exact s.locateNext_withInputs inputs
    | spanchk => exact s.checkSpan_withInputs inputs
    | extract => exact s.extractNext_withInputs inputs
    | sum8chk => exact s.checkSum_withInputs inputs
    | mapemit | advance | idle | done => rfl

variable {s}

/-- An operating step in a running state performs that state's operation. -/
theorem step_of_busy (hb : s.busy = true) (ho : s.operates = true) :
    step s = .next s.runningOperation.dropStimulus := by
  obtain ⟨-, hstep⟩ := everyOperationAnswersNext
  obtain ⟨t, ht⟩ := hstep s ho
  obtain ⟨hidle, hdone⟩ := Fsm.running_iff.1 hb
  rw [ht, State.runningOperation]
  rcases step_operates ho ht with ⟨ha, rfl⟩ | ⟨ha, rfl⟩ <;> rw [ha]
  · rfl
  · cases hf : s.fsm with
    | idle => exact absurd hf hidle
    | done => exact absurd hf hdone
    | locate | spanchk | extract | sum8chk | mapemit | advance => rfl

/-- A step of a running state under its pins: a reset, or the state's operation, and the pins are dropped. -/
theorem step_pins_of_busy {p : Pins} {rest : List Stimulus} (hb : s.busy = true) (hs : s.stimuli = .pins p :: rest) :
    step s = .next ((if p.rst then s.resetBlock else s.runningOperation).withInputs rest) := by
  cases hr : p.rst with
  | true =>
    rw [step_of_rst (by rw [State.pins, hs]; exact hr), State.dropStimulus, State.resetBlock_stimuli, hs]
    rfl
  | false =>
    have hkeep : s.runningOperation = s.runningOperation.withInputs (.pins p :: rest) :=
      hs ▸ s.runningOperation_withInputs s.stimuli rfl
    rw [step_of_busy hb (by simp [State.operates, hs, hr]), hkeep]
    rfl

/-- Of its pins a running state reads `rst` and the level alone. -/
theorem step_withInputs_of_busy {p q : Pins} {rest : List Stimulus} (hb : s.busy = true)
    (hs : s.stimuli = .pins p :: rest) (hrst : q.rst = p.rst) (hlevel : q.level = p.level) :
    step (s.withInputs (.pins q :: rest)) = step s := by
  have hpins : s.pins = p := by rw [State.pins, hs]
  have hop := s.runningOperation_withInputs (.pins q :: rest) (s.atFrame_withInputs _ (hpins ▸ hlevel))
  rw [step_pins_of_busy (s := s.withInputs (.pins q :: rest)) (p := q) hb rfl, step_pins_of_busy hb hs, hop, hrst]
  split <;> rfl

/-- Settles O13: the pulse changes neither `rst` nor the level, and the step drops it with the other pins. -/
theorem startPulseWhileBusyIsIgnored : Obligations.StartPulseWhileBusyIsIgnored :=
  fun _ _ _ _ hb hs => step_withInputs_of_busy hb hs rfl rfl

end Sys2Proof.Machine
end
